-- ==== Sys2Proof/Word.lean ====
section
/-! DEFINITION. The word types of the block (spec/00_scope.md R6, R8) and the one reading of a condition as a
number. Everything that computes on them stands in Decode.lean or under Machine/. -/

namespace Sys2Proof

/-- `u8`: a general register, a timer, a memory byte, an immediate byte (R8). -/
abbrev Byte := BitVec 8

/-- `u16`: an opcode, the program counter, the index register, a stack entry (R6, R8). -/
abbrev Word := BitVec 16

/-- `u12`: the absolute address `nnn` of an opcode (R91, R93). -/
abbrev Addr12 := BitVec 12

/-- A register number, 0 to 15 (`V0` to `VF`, R20). -/
abbrev Reg := Fin 16

/-- A key code the keypad delivers, 0 to 15 (R126). -/
abbrev KeyCode := Fin 16

/-- A display column, 0 to 63 (R35). -/
abbrev Col := Fin 64

/-- A display row, 0 to 31 (R35). -/
abbrev Row := Fin 32

/-- `VF`, the register that is also the flag (R21). -/
abbrev VF : Reg := 15

/-- "A condition used as a value is 1 when true and 0 when false" (R8). -/
def boolByte (b : Bool) : Byte := if b then 1 else 0

end Sys2Proof
end

