-- ==== Sys2Proof/Config.lean ====
section
/-! DEFINITION. The implementation parameters of spec/00_scope.md R6, what the environment can do to the block (R126,
R129, R131), and the free values: what the spec leaves to the environment (R125, R128, R307) or to the display
collaborator (R35, R123). A free value is a constant with no body, applied to a counter of State; nothing can be proved
about which value it is. -/

namespace Sys2Proof

/-- `MEM_SIZE`, 4096 bytes (R6, R60). -/
abbrev Config.memSize : Nat := 4096

/-- `STACK_DEPTH`, 16 entries (R6, R26; the spec's decision D4). -/
abbrev Config.stackDepth : Nat := 16

/-- `ENTRY`, the program counter after reset (R6, R291). -/
abbrev Config.entry : Word := 0x0200

/-- `ROM_BASE`, where the loader puts the program (R6, R66). -/
abbrev Config.romBase : Nat := 0x200

/-- `FONT_BASE`, address of glyph 0 (R6, R66). -/
abbrev Config.fontBase : Nat := 0x000

/-- `GLYPH_BYTES`, bytes per glyph (R6). -/
abbrev Config.glyphBytes : Nat := 5

/-- `NGLYPH`, glyphs (R6). -/
abbrev Config.nGlyphs : Nat := 16

/-- What a memory address that no cell lists reads as. The spec leaves the contents `M0` open (R6, R66, D27).
DESIGN CHOICE: 0; unsafe for a claim about `State.reset` alone, see notes/assumptions/1.md. -/
abbrev Config.unlisted : Byte := 0

/-- The 80 bytes of the conventional font, glyph 0 first (R67). PRESUMED: "[from general knowledge, not in
source]", see notes/assumptions/14.md. They are the loader's data: no instruction's meaning reads this table. -/
def Config.fontBytes : List Byte :=
  [0xF0, 0x90, 0x90, 0x90, 0xF0, 0x20, 0x60, 0x20, 0x20, 0x70,
   0xF0, 0x10, 0xF0, 0x80, 0xF0, 0xF0, 0x10, 0xF0, 0x10, 0xF0] ++
  [0x90, 0x90, 0xF0, 0x10, 0x10, 0xF0, 0x80, 0xF0, 0x10, 0xF0,
   0xF0, 0x80, 0xF0, 0x90, 0xF0, 0xF0, 0x10, 0x20, 0x40, 0x40] ++
  [0xF0, 0x90, 0xF0, 0x90, 0xF0, 0xF0, 0x90, 0xF0, 0x10, 0xF0,
   0xF0, 0x90, 0xF0, 0x90, 0x90, 0xE0, 0x90, 0xE0, 0x90, 0xE0] ++
  [0xF0, 0x80, 0x80, 0x80, 0xF0, 0xE0, 0x90, 0x90, 0x90, 0xE0,
   0xF0, 0x80, 0xF0, 0x80, 0xF0, 0xF0, 0x80, 0xF0, 0x80, 0x80]

/-! ### What the environment can do -/

/-- The display buffer `FB[px][py]`: "a 2-D boolean grid addressed `[x][y]`" (R35). -/
abbrev Machine.Display := Vector (Vector Bool 32) 64

/-- What can reach the block, or the stores beside it, from outside at a moment (R126, R129, R131). -/
inductive Machine.Arrival where
  /-- `CTRL` `start`. -/
  | start
  /-- `CTRL` `closed`. -/
  | closed
  /-- The keypad answers `waitForAnyKey()`. -/
  | key (code : KeyCode)
  /-- The host writes memory: each listed address gets its byte, a later entry over an earlier one (R131, R293). -/
  | hostFill (cells : List (Fin Config.memSize × Byte))
  /-- The host leaves a picture in `FB` (R131), and the collaborator's dirty flag whatever it likes (R35). -/
  | hostPicture (fb : Machine.Display) (dirty : Bool)
  deriving DecidableEq, Repr

/-- What the environment does in one step: at most one arrival, and perhaps a `reset` that cuts the step short after
its first `done` transactions (R142). See notes/assumptions/7.md and 11.md. -/
structure Machine.Input where
  arrives    : Option Machine.Arrival
  resetAfter : Option Nat
  deriving DecidableEq, Repr

/-- The environment does nothing in a step. -/
def Machine.Input.quiet : Machine.Input := ⟨none, none⟩

/-! ### Free values -/

/-- What arrives in step `n` of those that follow the listed inputs (R307: the model assumes nothing of the
environment but that transactions other than `waitForAnyKey` return). Free value, see notes/assumptions/7.md. -/
opaque Config.laterArrival : Nat → Option Machine.Arrival

/-- Whether, and where, a `reset` strikes in step `n` of those that follow the listed inputs (R142, R290). Free value,
see notes/assumptions/7.md. -/
opaque Config.laterReset : Nat → Option Nat

/-- The byte the random source returns at draw number `n` (R128: "an unconstrained draw of a `u8`").
Free value, see notes/assumptions/5.md. -/
opaque Config.randomByte : Nat → Byte

/-- The keypad's answer to `isKeyDown(code)` at draw number `n` (R125: any code 0 to 255, an input from the
environment, two queries may differ). Free value, see notes/assumptions/6.md. -/
opaque Config.keyDown : Nat → Byte → Bool

/-- Whether the display collaborator's `clear()` at draw number `n` marks the display dirty (R123, R231: not in
the document). Free value, see notes/assumptions/4.md. -/
opaque Config.clearMarksDirty : Nat → Bool

/-- Whether the dirty flag is still set after the sync at draw number `n` (R35: cleared by the collaborator "at a
moment the document does not give"). Free value, see notes/assumptions/4.md. -/
opaque Config.dirtyOutlivesSync : Nat → Bool

end Sys2Proof
end

