-- ==== Sys2Proof/Decode.lean ====
section
/-! DEFINITION. The decoder (spec/30_encoding.md R90, R91, R107), the opcode table and the match rule (R94 to R96),
the equivalent perfect decode (R98), and after them the encoder (R104). Every fetched word either is one
instruction or is rejected by name (R99). -/

namespace Sys2Proof

/-- The five fields the decoder cuts out of every opcode (R91), and `c`, the leading nibble. -/
structure Fields where
  c   : BitVec 4
  x   : Reg
  y   : Reg
  n   : Nat
  nn  : Byte
  nnn : Addr12
  deriving DecidableEq, Repr

/-- R91: `x` = op[11:8], `y` = op[7:4], `n` = op[3:0], `nn` = op[7:0], `nnn` = op[11:0], `c` = op[15:12]. -/
def fieldsOf (op : Word) : Fields where
  c   := op.extractLsb' 12 4
  x   := (op.extractLsb' 8 4).toFin
  y   := (op.extractLsb' 4 4).toFin
  n   := (op.extractLsb' 0 4).toNat
  nn  := op.extractLsb' 0 8
  nnn := op.extractLsb' 0 12

/-- One entry of the opcode table: the fixed bits, which bits take part in the match, and the instruction the
fields then make (R94). -/
structure OpcodeRow where
  mnemonic : String
  value    : Word
  mask     : Word
  build    : Fields → Instr

/-- R94: "entry matches opcode `op` iff `(op & mask) == value`". -/
def OpcodeRow.accepts (r : OpcodeRow) (op : Word) : Bool := op &&& r.mask == r.value

/-- Rows 1 to 9 of R96. -/
def opcodeRowsControl : List OpcodeRow :=
  [⟨"CLS", 0x00E0, 0xFFFF, fun _ => .cls⟩,
   ⟨"RET", 0x00EE, 0xFFFF, fun _ => .ret⟩,
   ⟨"JP", 0x1000, 0xF000, fun f => .jp f.nnn⟩,
   ⟨"CALL", 0x2000, 0xF000, fun f => .call f.nnn⟩,
   ⟨"SE_IMM", 0x3000, 0xF000, fun f => .seImm f.x f.nn⟩,
   ⟨"SNE_IMM", 0x4000, 0xF000, fun f => .sneImm f.x f.nn⟩,
   ⟨"SE_REG", 0x5000, 0xF00F, fun f => .seReg f.x f.y⟩,
   ⟨"LD_IMM", 0x6000, 0xF000, fun f => .ldImm f.x f.nn⟩,
   ⟨"ADD_IMM", 0x7000, 0xF000, fun f => .addImm f.x f.nn⟩]

/-- Rows 10 to 18 of R96. -/
def opcodeRowsAlu : List OpcodeRow :=
  [⟨"LD_REG", 0x8000, 0xF00F, fun f => .ldReg f.x f.y⟩,
   ⟨"OR", 0x8001, 0xF00F, fun f => .or f.x f.y⟩,
   ⟨"AND", 0x8002, 0xF00F, fun f => .and f.x f.y⟩,
   ⟨"XOR", 0x8003, 0xF00F, fun f => .xor f.x f.y⟩,
   ⟨"ADD_REG", 0x8004, 0xF00F, fun f => .addReg f.x f.y⟩,
   ⟨"SUB", 0x8005, 0xF00F, fun f => .sub f.x f.y⟩,
   ⟨"SHR", 0x8006, 0xF00F, fun f => .shr f.x f.y⟩,
   ⟨"SUBN", 0x8007, 0xF00F, fun f => .subn f.x f.y⟩,
   ⟨"SHL", 0x800E, 0xF00F, fun f => .shl f.x f.y⟩]

/-- Rows 19 to 25 of R96. -/
def opcodeRowsMiddle : List OpcodeRow :=
  [⟨"SNE_REG", 0x9000, 0xF00F, fun f => .sneReg f.x f.y⟩,
   ⟨"LD_I", 0xA000, 0xF000, fun f => .ldI f.nnn⟩,
   ⟨"JP_V0", 0xB000, 0xF000, fun f => .jpV0 f.nnn⟩,
   ⟨"RND", 0xC000, 0xF000, fun f => .rnd f.x f.nn⟩,
   ⟨"DRW", 0xD000, 0xF000, fun f => .drw f.x f.y f.n⟩,
   ⟨"SKP", 0xE09E, 0xF0FF, fun f => .skp f.x⟩,
   ⟨"SKNP", 0xE0A1, 0xF0FF, fun f => .sknp f.x⟩]

/-- Rows 26 to 34 of R96. -/
def opcodeRowsF : List OpcodeRow :=
  [⟨"LD_VX_DT", 0xF007, 0xF0FF, fun f => .ldVxDt f.x⟩,
   ⟨"LD_VX_K", 0xF00A, 0xF0FF, fun f => .ldVxK f.x⟩,
   ⟨"LD_DT_VX", 0xF015, 0xF0FF, fun f => .ldDtVx f.x⟩,
   ⟨"LD_ST_VX", 0xF018, 0xF0FF, fun f => .ldStVx f.x⟩,
   ⟨"ADD_I_VX", 0xF01E, 0xF0FF, fun f => .addIVx f.x⟩,
   ⟨"LD_F_VX", 0xF029, 0xF0FF, fun f => .ldFVx f.x⟩,
   ⟨"LD_B_VX", 0xF033, 0xF0FF, fun f => .ldBVx f.x⟩,
   ⟨"LD_MEM_VX", 0xF055, 0xF0FF, fun f => .ldMemVx f.x⟩,
   ⟨"LD_VX_MEM", 0xF065, 0xF0FF, fun f => .ldVxMem f.x⟩]

/-- The opcode map in the registration order of R96. -/
def opcodeTable : List OpcodeRow :=
  opcodeRowsControl ++ opcodeRowsAlu ++ opcodeRowsMiddle ++ opcodeRowsF

/-- Why bytes are no instruction. -/
inductive Reject where
  /-- Fewer than the two bytes of an instruction (R90). Safe: the caller has no instruction to run. -/
  | truncated
  /-- No entry of the table matches the opcode (R94, R99). Safe: the cycle raises `UnimplementedInstruction`. -/
  | unimplementedInstruction (op : Word)
  deriving DecidableEq, Repr

/-- R94: "first-registered-match wins"; no match raises with the raw opcode. -/
def decodeWord (op : Word) : Except Reject Instr :=
  match opcodeTable.find? (fun r => r.accepts op) with
  | some r => .ok (r.build (fieldsOf op))
  | none => .error (.unimplementedInstruction op)

/-- The instruction at the head of a list of bytes, high byte first (R64, R90), and the bytes after it. -/
def decode : List Byte → Except Reject (Instr × List Byte)
  | hi :: lo :: rest =>
    match decodeWord (hi ++ lo) with
    | .ok i => .ok (i, rest)
    | .error e => .error e
  | [_] => .error .truncated
  | [] => .error .truncated

/-- The case `c` = 8 of R98. -/
def perfectDecodeAlu (f : Fields) : Option Instr :=
  match f.n with
  | 0x0 => some (.ldReg f.x f.y)
  | 0x1 => some (.or f.x f.y)
  | 0x2 => some (.and f.x f.y)
  | 0x3 => some (.xor f.x f.y)
  | 0x4 => some (.addReg f.x f.y)
  | 0x5 => some (.sub f.x f.y)
  | 0x6 => some (.shr f.x f.y)
  | 0x7 => some (.subn f.x f.y)
  | 0xE => some (.shl f.x f.y)
  | _ => none

/-- The case `c` = F of R98. -/
def perfectDecodeF (f : Fields) : Option Instr :=
  match f.nn.toNat with
  | 0x07 => some (.ldVxDt f.x)
  | 0x0A => some (.ldVxK f.x)
  | 0x15 => some (.ldDtVx f.x)
  | 0x18 => some (.ldStVx f.x)
  | 0x1E => some (.addIVx f.x)
  | 0x29 => some (.ldFVx f.x)
  | 0x33 => some (.ldBVx f.x)
  | 0x55 => some (.ldMemVx f.x)
  | 0x65 => some (.ldVxMem f.x)
  | _ => none

/-- The two-level decode of R98, which the spec calls exactly equivalent to the scan of the table. -/
def perfectDecode (op : Word) : Option Instr :=
  let f := fieldsOf op
  match f.c.toNat with
  | 0x0 => if op = 0x00E0 then some .cls else if op = 0x00EE then some .ret else none
  | 0x1 => some (.jp f.nnn)
  | 0x2 => some (.call f.nnn)
  | 0x3 => some (.seImm f.x f.nn)
  | 0x4 => some (.sneImm f.x f.nn)
  | 0x5 => if f.n = 0 then some (.seReg f.x f.y) else none
  | 0x6 => some (.ldImm f.x f.nn)
  | 0x7 => some (.addImm f.x f.nn)
  | 0x8 => perfectDecodeAlu f
  | 0x9 => if f.n = 0 then some (.sneReg f.x f.y) else none
  | 0xA => some (.ldI f.nnn)
  | 0xB => some (.jpV0 f.nnn)
  | 0xC => some (.rnd f.x f.nn)
  | 0xD => some (.drw f.x f.y f.n)
  | 0xE => if f.nn = 0x9E then some (.skp f.x) else if f.nn = 0xA1 then some (.sknp f.x) else none
  | _ => perfectDecodeF f

/-- Format `NNN` (R92): the row's value with `nnn` in bits 11 to 0. -/
def wordNNN (value : Nat) (nnn : Addr12) : Word := BitVec.ofNat 16 (value + nnn.toNat)

/-- Format `XNN` (R92): `x` in bits 11 to 8, `nn` in bits 7 to 0. -/
def wordXNN (value : Nat) (x : Reg) (nn : Byte) : Word := BitVec.ofNat 16 (value + x.val * 0x100 + nn.toNat)

/-- Format `XY` (R92): `x` in bits 11 to 8, `y` in bits 7 to 4. -/
def wordXY (value : Nat) (x y : Reg) : Word := BitVec.ofNat 16 (value + x.val * 0x100 + y.val * 0x10)

/-- Format `X` (R92): `x` in bits 11 to 8. -/
def wordX (value : Nat) (x : Reg) : Word := BitVec.ofNat 16 (value + x.val * 0x100)

/-- Format `XYN` (R92): `x`, `y` as in `XY`, `n` in bits 3 to 0. -/
def wordXYN (value : Nat) (x y : Reg) (n : Nat) : Word :=
  BitVec.ofNat 16 (value + x.val * 0x100 + y.val * 0x10 + n % 0x10)

/-- The word of an instruction: its row's value with the operand fields placed as in R91 (R104). -/
def encode : Instr → Word
  | .cls => 0x00E0
  | .ret => 0x00EE
  | .jp nnn => wordNNN 0x1000 nnn
  | .call nnn => wordNNN 0x2000 nnn
  | .seImm x nn => wordXNN 0x3000 x nn
  | .sneImm x nn => wordXNN 0x4000 x nn
  | .seReg x y => wordXY 0x5000 x y
  | .ldImm x nn => wordXNN 0x6000 x nn
  | .addImm x nn => wordXNN 0x7000 x nn
  | .ldReg x y => wordXY 0x8000 x y
  | .or x y => wordXY 0x8001 x y
  | .and x y => wordXY 0x8002 x y
  | .xor x y => wordXY 0x8003 x y
  | .addReg x y => wordXY 0x8004 x y
  | .sub x y => wordXY 0x8005 x y
  | .shr x y => wordXY 0x8006 x y
  | .subn x y => wordXY 0x8007 x y
  | .shl x y => wordXY 0x800E x y
  | .sneReg x y => wordXY 0x9000 x y
  | .ldI nnn => wordNNN 0xA000 nnn
  | .jpV0 nnn => wordNNN 0xB000 nnn
  | .rnd x nn => wordXNN 0xC000 x nn
  | .drw x y n => wordXYN 0xD000 x y n
  | .skp x => wordX 0xE09E x
  | .sknp x => wordX 0xE0A1 x
  | .ldVxDt x => wordX 0xF007 x
  | .ldVxK x => wordX 0xF00A x
  | .ldDtVx x => wordX 0xF015 x
  | .ldStVx x => wordX 0xF018 x
  | .addIVx x => wordX 0xF01E x
  | .ldFVx x => wordX 0xF029 x
  | .ldBVx x => wordX 0xF033 x
  | .ldMemVx x => wordX 0xF055 x
  | .ldVxMem x => wordX 0xF065 x

/-- The two bytes of a word as memory holds them, high byte at the lower address (R64, R90). -/
def wordBytes (op : Word) : List Byte := [op.extractLsb' 8 8, op.extractLsb' 0 8]

/-- The bytes of an instruction as memory holds them (R90). -/
def encodeBytes (i : Instr) : List Byte := wordBytes (encode i)

/-- The 16-bit word that spec/opcode_table.json numbers as the low `nbits` bits of `w`; every bit above is 0. -/
def tableWord (nbits w : Nat) : Word := BitVec.ofNat 16 (w % 2 ^ nbits)

/-- What the decoder reads from a word numbered as spec/opcode_table.json numbers it, laid out big-endian (R64). -/
def decodeTableWord (nbits w : Nat) : Option Instr :=
  match decode (wordBytes (tableWord nbits w)) with
  | .ok (i, _) => some i
  | .error _ => none

end Sys2Proof
end

