-- ==== Sys2Proof/Machine/State.lean ====
section
/-! DEFINITION. The whole state of the machine as plain data (spec/10_state.md R20 to R40), the reasons it records
when it faults, the transactions it makes on its ports (spec/40_cycle_and_interfaces.md R120), and the state after
reset (R39). -/

namespace Sys2Proof.Machine

/-- The run state of the block (R30). `awaitingKey` carries `kx`, the register field of the waiting `Fx0A`, which has
no meaning in any other mode (R33, R38). -/
inductive Mode where
  /-- After reset, before `start`; no cycle runs. -/
  | idle
  /-- Cycles run one after another. -/
  | running
  /-- An `Fx0A` has been dispatched and waits for the keypad. -/
  | awaitingKey (kx : Reg)
  /-- The stop request was seen; no cycle runs. -/
  | stopped
  /-- A fault was raised; no cycle runs. -/
  | faulted
  deriving DecidableEq, Repr

/-- The four faults of R250. Each is taken as fault entry (R256), a next state in mode `faulted`, so no step of this
model ends in `Host.Outcome.fault`; the type is the reason a primitive raises and fault entry records. -/
inductive Fault where
  /-- Raised by dispatch when no table entry matches the opcode (R251). Safe: the state R256 gives is reached. -/
  | unimplementedInstruction (op : Word)
  /-- Raised by the fetch, `Dxyn`, `Fx33`, `Fx55`, `Fx65` on an address of 4096 or more (R252). Safe, likewise. -/
  | memoryFault (addr : Nat)
  /-- Raised by `2nnn` on a full call stack; carries the value not pushed (R253). Safe, likewise. -/
  | stackOverflow (value : Word)
  /-- Raised by `00EE` on an empty call stack (R254). Safe, likewise. -/
  | stackUnderflow
  deriving DecidableEq, Repr

/-- Why the model gives an instruction no meaning. -/
inductive Refusal where
  /-- Raised by an arm of `exec` whose instruction has no meaning yet; safe. No arm of this model does. -/
  | notModelled (mnemonic : String)
  deriving DecidableEq, Repr

/-- One transaction on a port of the block (R120), with what it carries and what comes back; and, since nothing else
writes the stores outside the block, what the host does to them before `start` (R131). -/
inductive Event where
  /-- `MEM` read and the byte returned (R121: a 12-bit address). -/
  | memRead (addr : Fin Config.memSize) (value : Byte)
  /-- `MEM` write (R121). -/
  | memWrite (addr : Fin Config.memSize) (value : Byte)
  /-- `DISP` `clear()` (R122). -/
  | dispClear
  /-- `DISP` `getPixel(x,y)` and the answer (R122). -/
  | dispGet (px : Col) (py : Row) (value : Bool)
  /-- `DISP` `setPixel(value,x,y)` (R122). -/
  | dispSet (px : Col) (py : Row) (value : Bool)
  /-- `DISP` `markDirty(true)` (R123). -/
  | dispMarkDirty
  /-- `SYNC`: "process pending input events", then "render if its internal dirty flag is set" (R124). -/
  | sync
  /-- `KEY` `isKeyDown(code)` and the answer (R125). -/
  | isKeyDown (code : Byte) (down : Bool)
  /-- `KEY` `waitForAnyKey()` is started (R126, R141). -/
  | waitForAnyKey
  /-- `waitForAnyKey()` returns (R126). -/
  | keyDelivered (code : KeyCode)
  /-- `AUDIO` `play()` (R127). -/
  | play
  /-- `RNG`: one byte on demand (R128). -/
  | rand (value : Byte)
  /-- `RNG`: the seed is taken from the entropy source, at reset (R128, R290). -/
  | seed
  /-- No transaction of the block: the host writes memory (R131). -/
  | hostFill (cells : List (Fin Config.memSize × Byte))
  /-- No transaction of the block: the host leaves a picture in `FB`, and the dirty flag as it says (R131). -/
  | hostPicture (fb : Display) (dirty : Bool)
  deriving DecidableEq, Repr

/-- Memory as the cells that differ from what an unlisted address reads as (R34, R60). -/
abbrev Memory := List Host.Cell

/-- The machine state of R40, and after it what the model holds for the environment's sake. -/
structure State where
  /-- `V[0]` to `V[15]` (R20). -/
  v : Vector Byte 16
  /-- The index register `I` (R24). -/
  i : Word
  /-- The program counter (R22). -/
  pc : Word
  /-- `stack[0 .. sp-1]`, oldest first; `sp` is its length (R26, R27). -/
  stack : List Word
  /-- The delay timer `DT` (R28). -/
  dt : Byte
  /-- The sound timer `ST` (R28). -/
  st : Byte
  /-- The mode, with `kx` in `awaitingKey` (R30, R33). -/
  mode : Mode
  /-- The stop request latch `stop_req` (R31). -/
  stopReq : Bool
  /-- The fault record's `cause`; 0 is none (R32, R255). -/
  cause : BitVec 3
  /-- The fault record's `info` (R32, R255). -/
  info : Word
  /-- The memory `M` (R34). -/
  mem : Memory
  /-- The display buffer `FB` (R35). -/
  fb : Display
  /-- The display collaborator's dirty flag (R35). -/
  dirty : Bool
  /-- MODEL'S OWN: how many free values have been taken (notes/assumptions/5.md). -/
  draws : Nat
  /-- MODEL'S OWN: what the environment does in the next steps; after the list ends it does what
  `Config.laterArrival` and `Config.laterReset` leave free (notes/assumptions/7.md). -/
  inputs : List Input
  /-- MODEL'S OWN: how many steps have taken such a free input (notes/assumptions/7.md). -/
  moments : Nat
  /-- MODEL'S OWN: every transaction made so far, oldest first (R146; notes/assumptions/10.md). -/
  trace : List Event
  deriving DecidableEq, Repr

/-- `sp`, the number of live stack entries (R26, R38). -/
def State.sp (s : State) : Nat := s.stack.length

/-- The state after reset (R39), over memory with nothing listed and a dark display (notes/assumptions/1.md, 2.md,
3.md), with no input listed (notes/assumptions/7.md, 8.md). -/
def State.reset : State where
  v       := Vector.replicate 16 0
  i       := 0
  pc      := Config.entry
  stack   := []
  dt      := 0
  st      := 0
  mode    := .idle
  stopReq := false
  cause   := 0
  info    := 0
  mem     := []
  fb      := Vector.replicate 64 (Vector.replicate 32 false)
  dirty   := false
  draws   := 0
  inputs  := []
  moments := 0
  trace   := []

end Sys2Proof.Machine
end

