-- ==== Sys2Proof/Machine/Ops.lean ====
section
/-! DEFINITION. The named operations over memory, registers, the call stack, the ports and the mode: the
pseudocode primitives of spec/00_scope.md R9, and fault entry (spec/60_exceptions.md R256) with the one way out of
it, reset (R259, R290). -/

namespace Sys2Proof.Machine

/-! ### A primitive either answers or raises (R9) -/

/-- What a primitive that can raise gives: its answer with the state after it, or the fault with the state in which
it was raised. -/
inductive Res (α : Type) where
  | ok (a : α) (s : State)
  | raised (f : Fault) (s : State)

/-- Record a transaction (R146). -/
def State.log (e : Event) (s : State) : State := { s with trace := s.trace ++ [e] }

/-! ### Memory (spec/20_memory.md) -/

/-- The byte at an address: the listed one, else what an unlisted address reads as. -/
def Memory.get : Memory → Nat → Byte
  | [], _ => Config.unlisted
  | (a, b) :: m, k => if k = a then b else Memory.get m k

/-- Every cell of an address taken out. -/
def Memory.erase (m : Memory) (k : Nat) : Memory := m.filter (fun c => c.1 != k)

/-- A cell put in front of the first cell with a greater address. -/
def Memory.insert : Memory → Nat → Byte → Memory
  | [], k, b => [(k, b)]
  | c :: m, k, b => if k < c.1 then (k, b) :: c :: m else c :: Memory.insert m k b

/-- One byte written; a byte equal to what an unlisted address reads as is not listed. -/
def Memory.set (m : Memory) (k : Nat) (b : Byte) : Memory :=
  if b = Config.unlisted then m.erase k else Memory.insert (m.erase k) k b

/-- The canonical form: addresses of the one address space (R60), strictly rising, no cell equal to what an unlisted
address reads as. -/
def Memory.wf (m : Memory) : Bool :=
  decide (m.Pairwise (fun c d => c.1 < d.1)) &&
    m.all (fun c => decide (c.1 < Config.memSize) && c.2 != Config.unlisted)

/-- The byte of the state's memory at an address (R34). -/
def State.byteAt (s : State) (a : Nat) : Byte := Memory.get s.mem a

/-- `MemRead(addr, 1)` (R62). -/
def State.memRead (a : Nat) (s : State) : Res Byte :=
  if h : a < Config.memSize then .ok (s.byteAt a) (s.log (.memRead ⟨a, h⟩ (s.byteAt a)))
  else .raised (.memoryFault a) s

/-- `MemWrite(addr, 1, v)` (R62). -/
def State.memWrite (a : Nat) (b : Byte) (s : State) : Res Unit :=
  if h : a < Config.memSize then
    .ok () (State.log (.memWrite ⟨a, h⟩ b) { s with mem := Memory.set s.mem a b })
  else .raised (.memoryFault a) s

/-- The fault `CheckRange(base, count)` raises, if any: it reports `max(base, 4096)` (R79). -/
def rangeFault (base count : Nat) : Option Fault :=
  if 0 < count ∧ Config.memSize ≤ base + count - 1 then some (.memoryFault (max base Config.memSize)) else none

/-- `CheckRange(base, count)` (R79). -/
def State.checkRange (base count : Nat) (s : State) : Res Unit :=
  match rangeFault base count with
  | some f => .raised f s
  | none => .ok () s

/-- `Fetch16(addr)`: the big-endian pair, the byte at `addr` high (R64); `addr + 1` does not wrap (R63). -/
def State.fetch16 (a : Nat) (s : State) : Res Word :=
  match s.memRead a with
  | .raised f t => .raised f t
  | .ok hi t =>
    match t.memRead (a + 1) with
    | .raised f u => .raised f u
    | .ok lo u => .ok (hi ++ lo) u

/-- Consecutive bytes written from an address up, in ascending order (R73). -/
def State.storeBytes : Nat → List Byte → State → Res Unit
  | _, [], s => .ok () s
  | a, b :: bs, s =>
    match s.memWrite a b with
    | .raised f t => .raised f t
    | .ok _ t => State.storeBytes (a + 1) bs t

/-! ### General registers, index register, program counter, timers (spec/10_state.md) -/

/-- `V[i]` (R20). -/
def State.getV (s : State) (r : Reg) : Byte := s.v[r]

/-- `V[i] <- v` (R20). -/
def State.setV (r : Reg) (b : Byte) (s : State) : State := { s with v := s.v.set r b }

/-- `I <- v` (R24). -/
def State.setI (w : Word) (s : State) : State := { s with i := w }

/-- `pc <- v` (R22). -/
def State.setPc (w : Word) (s : State) : State := { s with pc := w }

/-- `DT <- v` (R29). -/
def State.setDt (b : Byte) (s : State) : State := { s with dt := b }

/-- `ST <- v` (R29). -/
def State.setSt (b : Byte) (s : State) : State := { s with st := b }

/-- The mode is written (R30). -/
def State.setMode (m : Mode) (s : State) : State := { s with mode := m }

/-- `pc <- (pc + 2) mod 65536`, the end of every non-branching handler (R23). -/
def State.advance (s : State) : State := s.setPc (s.pc + 2)

/-! ### Call stack (R26) -/

/-- `push(v)`. -/
def State.push (w : Word) (s : State) : Res Unit :=
  if s.sp = Config.stackDepth then .raised (.stackOverflow w) s
  else .ok () { s with stack := s.stack ++ [w] }

/-- `pop()`. -/
def State.pop (s : State) : Res Word :=
  match s.stack.getLast? with
  | none => .raised .stackUnderflow s
  | some w => .ok w { s with stack := s.stack.dropLast }

/-! ### Display port (R122, R123) -/

/-- Pixel `FB[px][py]`. -/
def State.pixel (s : State) (px : Col) (py : Row) : Bool := s.fb[px][py]

/-- The buffer with one pixel written. -/
def Display.set (fb : Display) (px : Col) (py : Row) (b : Bool) : Display :=
  Vector.set fb px (fb[px].set py b)

/-- The buffer with every pixel 0. -/
def Display.clear : Display := Vector.replicate 64 (Vector.replicate 32 false)

/-- `DispClear()` (R122). Whether the collaborator's `clear()` marks itself dirty is a free value (R123;
notes/assumptions/4.md). -/
def State.dispClear (s : State) : State :=
  State.log .dispClear
    { s with fb := Display.clear, dirty := s.dirty || Config.clearMarksDirty s.draws, draws := s.draws + 1 }

/-- `DispGet(px, py)`: the answer is `s.pixel px py`, and the transaction is recorded (R122). -/
def State.dispGet (px : Col) (py : Row) (s : State) : State := s.log (.dispGet px py (s.pixel px py))

/-- `DispSet(px, py, b)` (R122). -/
def State.dispSet (px : Col) (py : Row) (b : Bool) (s : State) : State :=
  State.log (.dispSet px py b) { s with fb := Display.set s.fb px py b }

/-- `DispMarkDirty()`, the transaction `markDirty(true)` (R123). -/
def State.dispMarkDirty (s : State) : State := State.log .dispMarkDirty { s with dirty := true }

/-- `Sync()` (R124). Whether the collaborator clears its dirty flag then is a free value (R35;
notes/assumptions/4.md). -/
def State.sync (s : State) : State :=
  State.log .sync { s with dirty := s.dirty && Config.dirtyOutlivesSync s.draws, draws := s.draws + 1 }

/-! ### Keypad, audio and random ports (R125 to R128) -/

/-- The answer `KeyDown(k)` gives in this state (R125). -/
def State.keyAnswer (s : State) (code : Byte) : Bool := Config.keyDown s.draws code

/-- One `isKeyDown` query is made and recorded (R125). -/
def State.keyQuery (code : Byte) (s : State) : State :=
  State.log (.isKeyDown code (s.keyAnswer code)) { s with draws := s.draws + 1 }

/-- The byte `Rand()` gives in this state (R128). -/
def State.randAnswer (s : State) : Byte := Config.randomByte s.draws

/-- One byte is taken from the random source (R128). -/
def State.randDraw (s : State) : State := State.log (.rand s.randAnswer) { s with draws := s.draws + 1 }

/-- `AudioPlay()` (R127). -/
def State.audioPlay (s : State) : State := s.log .play

/-! ### Fault entry (R255, R256), and reset, the only way out of it (R259, R290) -/

/-- The `cause` code of a fault (R250). -/
def Fault.code : Fault → BitVec 3
  | .unimplementedInstruction _ => 1
  | .memoryFault _ => 2
  | .stackOverflow _ => 3
  | .stackUnderflow => 4

/-- The `info` recorded with a fault (R250); an address is recorded `mod 65536` (R63). -/
def Fault.detail : Fault → Word
  | .unimplementedInstruction op => op
  | .memoryFault a => BitVec.ofNat 16 a
  | .stackOverflow w => w
  | .stackUnderflow => 0

/-- `raise F(info)`: the fault record is set, the mode becomes `faulted`, and nothing else changes (R256). -/
def State.enterFault (f : Fault) (s : State) : State :=
  { s with mode := .faulted, cause := f.code, info := f.detail }

/-- A handler's result as the outcome of a step: a raise takes fault entry (R140, R256). -/
def Res.outcome : Res Unit → Host.Outcome State Fault Refusal
  | .ok _ t => .next t
  | .raised f t => .next (t.enterFault f)

/-- The block's own state put at the values of R39, from any mode; memory and the display are not touched, and the
random source is reseeded (R290). -/
def State.blockReset (s : State) : State :=
  State.log .seed
    { s with
      v := Vector.replicate 16 0, i := 0, pc := Config.entry, stack := [], dt := 0, st := 0, mode := .idle,
      stopReq := false, cause := 0, info := 0 }

/-! ### The stores outside the block, as its transactions leave them (R123, R142) -/

/-- Bytes written at their addresses, in order (R131). -/
def Memory.fill (m : Memory) (cells : List (Fin Config.memSize × Byte)) : Memory :=
  cells.foldl (fun n c => Memory.set n c.1.val c.2) m

/-- Memory, display buffer, dirty flag and the count of free values taken: what reset does not touch (R290). -/
structure Outside where
  mem   : Memory
  fb    : Display
  dirty : Bool
  draws : Nat
  deriving DecidableEq, Repr

/-- The part of the state that lies outside the block. -/
def State.outside (s : State) : Outside := ⟨s.mem, s.fb, s.dirty, s.draws⟩

/-- The state with another outside. -/
def State.withOutside (o : Outside) (s : State) : State :=
  { s with mem := o.mem, fb := o.fb, dirty := o.dirty, draws := o.draws }

/-- What one transaction (R121 to R128), or the host (R131), does outside the block. -/
def Outside.after (o : Outside) : Event → Outside
  | .memWrite a b => { o with mem := Memory.set o.mem a b }
  | .dispClear =>
    { o with fb := Display.clear, dirty := o.dirty || Config.clearMarksDirty o.draws, draws := o.draws + 1 }
  | .dispSet px py b => { o with fb := Display.set o.fb px py b }
  | .dispMarkDirty => { o with dirty := true }
  | .sync => { o with dirty := o.dirty && Config.dirtyOutlivesSync o.draws, draws := o.draws + 1 }
  | .isKeyDown _ _ => { o with draws := o.draws + 1 }
  | .rand _ => { o with draws := o.draws + 1 }
  | .hostFill cells => { o with mem := Memory.fill o.mem cells }
  | .hostPicture fb dirty => { o with fb := fb, dirty := dirty }
  | .memRead _ _ => o
  | .dispGet _ _ _ => o
  | .waitForAnyKey => o
  | .keyDelivered _ => o
  | .play => o
  | .seed => o

/-! ### Loading, the host's part before `start` (R66, R293) -/

/-- Bytes placed in memory from an address up, by the loader and not by the block. -/
def Memory.load : Memory → Nat → List Byte → Memory
  | m, _, [] => m
  | m, a, b :: bs => Memory.load (Memory.set m a b) (a + 1) bs

/-- The launch of R294: the reset state, the font at 0x000 and the program at 0x200 loaded (R293), and `start` the
first thing to arrive. DESIGN CHOICE: of a program longer than the 3584 bytes from 0x200 to the end of memory the first
3584 bytes are loaded and the rest is dropped; what the loader does with one the spec leaves open (R66, D27, N13). See
notes/assumptions/8.md and 21.md. -/
def State.launch (rom : List Byte) : State :=
  { State.reset with
    mem := Memory.load (Memory.load [] Config.fontBase Config.fontBytes) Config.romBase
      (rom.take (Config.memSize - Config.romBase))
    inputs := [⟨some .start, none⟩] }

end Sys2Proof.Machine
end

