-- ==== Sys2Proof/Machine/Operands.lean ====
section
/-! DEFINITION. Every operand form of the instruction set (spec/30_encoding.md R93): zero-extended immediates and
addresses, memory at `I` plus an offset, the register range `V0` to `Vx`, decimal digits, sprite bits and wrapped
display coordinates, and the two ways a skip leaves `pc`. -/

namespace Sys2Proof.Machine

/-- `zext_16(nnn)` (R93). -/
def targetOf (nnn : Addr12) : Word := nnn.setWidth 16

/-- `zext_16` of a byte (R8). -/
def zext16 (b : Byte) : Word := b.setWidth 16

/-- The base address `I` as a natural number; `I + offset` is formed from it without wrap (R63, R200). -/
def State.base (s : State) : Nat := s.i.toNat

/-- `V[0]`, ..., `V[x]`, the register range of `Fx55` (R93, R205). -/
def State.regRange (s : State) (x : Reg) : List Byte := s.v.toList.take (x.val + 1)

/-- The number of bytes `Fx55` and `Fx65` move: `x + 1` (R93). -/
def rangeCount (x : Reg) : Nat := x.val + 1

/-- The decimal digits of a byte: hundreds, tens, ones, each in its own byte (R204). -/
def decimalDigits (b : Byte) : List Byte :=
  [BitVec.ofNat 8 (b.toNat / 100), BitVec.ofNat 8 (b.toNat / 10 % 10), BitVec.ofNat 8 (b.toNat % 10)]

/-- `row[7 - c]`: bit 7 of a sprite byte is column 0 (R232 (b)). -/
def spriteBit (row : Byte) (c : Nat) : Bool := row.getLsbD (7 - c)

/-- `(vx + c) mod 64` (R232 (d)). -/
def wrapCol (vx : Byte) (c : Nat) : Col := ⟨(vx.toNat + c) % 64, Nat.mod_lt _ (by decide)⟩

/-- `(vy + r) mod 32` (R232 (d)). -/
def wrapRow (vy : Byte) (r : Nat) : Row := ⟨(vy.toNat + r) % 32, Nat.mod_lt _ (by decide)⟩

/-- A skip: `pc + 4` if the condition holds, else `pc + 2` (R23). -/
def State.skipIf (c : Bool) (s : State) : State := s.setPc (if c then s.pc + 4 else s.pc + 2)

/-- `V[k] <- MemRead(I + k, 1)` for consecutive registers and addresses, ascending (R206). `k` is the register to
load first and the first argument counts the loads still to do. -/
def State.loadRegs : Nat → Nat → State → Res Unit
  | 0, _, s => .ok () s
  | count + 1, k, s =>
    match s.memRead (s.base + k) with
    | .raised f t => .raised f t
    | .ok b t => State.loadRegs count (k + 1) (t.setV (Fin.ofNat 16 k) b)

end Sys2Proof.Machine
end

