-- ==== Sys2Proof/Machine/Flags.lean ====
section
/-! DEFINITION. Every flag and result computation of the arithmetic unit (spec/42_alu.md R187 to R192), computed on
natural numbers and narrowed at the end, and the order of a handler's flag and result writes (R180). -/

namespace Sys2Proof.Machine

/-- "VF = sum>255" (R187). -/
def carryFlag (a b : Byte) : Byte := boolByte (decide (255 < a.toNat + b.toNat))

/-- `sum mod 256` (R182, R187). -/
def sumByte (a b : Byte) : Byte := BitVec.ofNat 8 (a.toNat + b.toNat)

/-- `(a > b)`, strict and before subtracting (R188, R190). -/
def greaterFlag (a b : Byte) : Byte := boolByte (decide (b.toNat < a.toNat))

/-- `(a + 256 - b) mod 256` (R188, R190). -/
def differenceByte (a b : Byte) : Byte := BitVec.ofNat 8 (a.toNat + 256 - b.toNat)

/-- `a[0]`, the bit shifted out at the right (R189). -/
def lowBitFlag (a : Byte) : Byte := boolByte (a.getLsbD 0)

/-- `a >> 1` (R189). -/
def shiftedRight (a : Byte) : Byte := a >>> 1

/-- `a[7]`, the bit shifted out at the left (R191). -/
def highBitFlag (a : Byte) : Byte := boolByte (a.getLsbD 7)

/-- `(a << 1) mod 256` (R191). -/
def shiftedLeft (a : Byte) : Byte := a <<< 1

/-- The end of a flag-producing handler, its operands read: write the flag, then the result, then advance, so that
with `x` = 15 the result overwrites the flag (R180). -/
def State.flagThenResult (x : Reg) (flag result : Byte) (s : State) : State :=
  ((s.setV VF flag).setV x result).advance

/-- The end of a handler that writes a result and no flag (R180). -/
def State.resultOnly (x : Reg) (result : Byte) (s : State) : State := (s.setV x result).advance

end Sys2Proof.Machine
end

