-- ==== Sys2Proof/Machine/Alu.lean ====
section
/-! DEFINITION. Register load and arithmetic-logic instructions (spec/42_alu.md R180 to R192). -/

namespace Sys2Proof.Machine

/-- `6xnn` (R181). -/
def execLdImm (x : Reg) (nn : Byte) (s : State) : Host.Outcome State Fault Refusal := .next (s.resultOnly x nn)

/-- `7xnn` (R182): wraps, no flag. -/
def execAddImm (x : Reg) (nn : Byte) (s : State) : Host.Outcome State Fault Refusal :=
  .next (s.resultOnly x (sumByte (s.getV x) nn))

/-- `8xy0` (R183). -/
def execLdReg (x y : Reg) (s : State) : Host.Outcome State Fault Refusal := .next (s.resultOnly x (s.getV y))

/-- `8xy1` (R184). -/
def execOr (x y : Reg) (s : State) : Host.Outcome State Fault Refusal :=
  .next (s.resultOnly x (s.getV x ||| s.getV y))

/-- `8xy2` (R185). -/
def execAnd (x y : Reg) (s : State) : Host.Outcome State Fault Refusal :=
  .next (s.resultOnly x (s.getV x &&& s.getV y))

/-- `8xy3` (R186). -/
def execXor (x y : Reg) (s : State) : Host.Outcome State Fault Refusal :=
  .next (s.resultOnly x (s.getV x ^^^ s.getV y))

/-- `8xy4` (R187): `VF` is the carry. -/
def execAddReg (x y : Reg) (s : State) : Host.Outcome State Fault Refusal :=
  .next (s.flagThenResult x (carryFlag (s.getV x) (s.getV y)) (sumByte (s.getV x) (s.getV y)))

/-- `8xy5` (R188): `VF` is `Vx > Vy`. -/
def execSub (x y : Reg) (s : State) : Host.Outcome State Fault Refusal :=
  .next (s.flagThenResult x (greaterFlag (s.getV x) (s.getV y)) (differenceByte (s.getV x) (s.getV y)))

/-- `8xy6` (R189): shifts `Vx`; the `y` field is no operand. -/
def execShr (x : Reg) (s : State) : Host.Outcome State Fault Refusal :=
  .next (s.flagThenResult x (lowBitFlag (s.getV x)) (shiftedRight (s.getV x)))

/-- `8xy7` (R190): `VF` is `Vy > Vx`. -/
def execSubn (x y : Reg) (s : State) : Host.Outcome State Fault Refusal :=
  .next (s.flagThenResult x (greaterFlag (s.getV y) (s.getV x)) (differenceByte (s.getV y) (s.getV x)))

/-- `8xyE` (R191): shifts `Vx`; the `y` field is no operand. -/
def execShl (x : Reg) (s : State) : Host.Outcome State Fault Refusal :=
  .next (s.flagThenResult x (highBitFlag (s.getV x)) (shiftedLeft (s.getV x)))

end Sys2Proof.Machine
end

