-- ==== Sys2Proof/Machine/Control.lean ====
section
/-! DEFINITION. Control-flow instructions (spec/41_control_flow.md R160 to R168). On entry `pc` is the address of the
instruction itself (R22), and each meaning writes the new one. -/

namespace Sys2Proof.Machine

/-- `00EE` (R161): `pc <- pop() + 2`, or `StackUnderflow`. -/
def execRet (s : State) : Host.Outcome State Fault Refusal :=
  match s.pop with
  | .raised f t => .next (t.enterFault f)
  | .ok a t => .next (t.setPc (a + 2))

/-- `1nnn` (R162). -/
def execJp (nnn : Addr12) (s : State) : Host.Outcome State Fault Refusal := .next (s.setPc (targetOf nnn))

/-- `2nnn` (R163): pushes the address of the call itself, or `StackOverflow`. -/
def execCall (nnn : Addr12) (s : State) : Host.Outcome State Fault Refusal :=
  match s.push s.pc with
  | .raised f t => .next (t.enterFault f)
  | .ok _ t => .next (t.setPc (targetOf nnn))

/-- `3xnn` (R164). -/
def execSeImm (x : Reg) (nn : Byte) (s : State) : Host.Outcome State Fault Refusal :=
  .next (s.skipIf (s.getV x == nn))

/-- `4xnn` (R165). -/
def execSneImm (x : Reg) (nn : Byte) (s : State) : Host.Outcome State Fault Refusal :=
  .next (s.skipIf (s.getV x != nn))

/-- `5xy0` (R166). -/
def execSeReg (x y : Reg) (s : State) : Host.Outcome State Fault Refusal :=
  .next (s.skipIf (s.getV x == s.getV y))

/-- `9xy0` (R167). -/
def execSneReg (x y : Reg) (s : State) : Host.Outcome State Fault Refusal :=
  .next (s.skipIf (s.getV x != s.getV y))

/-- `Bnnn` (R168): always adds `V0`, as an unsigned number, 16 bits wide. -/
def execJpV0 (nnn : Addr12) (s : State) : Host.Outcome State Fault Refusal :=
  .next (s.setPc (targetOf nnn + zext16 (s.getV 0)))

end Sys2Proof.Machine
end

