-- ==== Sys2Proof/Machine/Display.lean ====
section
/-! DEFINITION. Display and keypad instructions (spec/45_display_keypad.md R230 to R236). -/

namespace Sys2Proof.Machine

/-- `00E0` (R231): the block sends `clear()` and no `markDirty`. -/
def execCls (s : State) : Host.Outcome State Fault Refusal := .next s.dispClear.advance

/-- The body of R232's inner loop for a sprite bit that is 1: get, flip, then the collision flag or `markDirty`. -/
def State.flipPixel (px : Col) (py : Row) (s : State) : State :=
  let old := s.pixel px py
  let t := (s.dispGet px py).dispSet px py (!old)
  if old then t.setV VF 1 else t.dispMarkDirty

/-- One column of one sprite row (R232 step 4); a 0 bit makes no transaction (point (c)). -/
def State.drawBit (vx vy : Byte) (r : Nat) (row : Byte) (c : Nat) (s : State) : State :=
  if spriteBit row c then s.flipPixel (wrapCol vx c) (wrapRow vy r) else s

/-- The eight columns of one sprite row, left to right (R232 step 4). -/
def State.drawRow (vx vy : Byte) (r : Nat) (row : Byte) (s : State) : State :=
  (List.range 8).foldl (fun t c => t.drawBit vx vy r row c) s

/-- Sprite rows from row `r` down, `count` of them, each byte read from `I + r` (R232 step 4). -/
def State.drawRows (vx vy : Byte) : Nat → Nat → State → Res Unit
  | 0, _, s => .ok () s
  | count + 1, r, s =>
    match s.memRead (s.base + r) with
    | .raised f t => .raised f t
    | .ok row t => State.drawRows vx vy count (r + 1) (t.drawRow vx vy r row)

/-- `Dxyn` (R232): operands, range check, flag reset, rows. -/
def execDrw (x y : Reg) (n : Nat) (s : State) : Host.Outcome State Fault Refusal :=
  match s.checkRange s.base n with
  | .raised f t => .next (t.enterFault f)
  | .ok _ t =>
    match (t.setV VF 0).drawRows (s.getV x) (s.getV y) n 0 with
    | .raised f u => .next (u.enterFault f)
    | .ok _ u => .next u.advance

/-- `Ex9E` (R234): one `isKeyDown` query with all 8 bits of `Vx`. -/
def execSkp (x : Reg) (s : State) : Host.Outcome State Fault Refusal :=
  .next ((s.keyQuery (s.getV x)).skipIf (s.keyAnswer (s.getV x)))

/-- `ExA1` (R235). -/
def execSknp (x : Reg) (s : State) : Host.Outcome State Fault Refusal :=
  .next ((s.keyQuery (s.getV x)).skipIf (!s.keyAnswer (s.getV x)))

/-- `Fx0A`, part 1 (R236): the wait is started; `pc` stays. -/
def execLdVxK (x : Reg) (s : State) : Host.Outcome State Fault Refusal :=
  .next ((s.setMode (.awaitingKey x)).log .waitForAnyKey)

/-- `Fx0A`, part 2 (R236): the keypad delivers a code. -/
def State.takeKey (kx : Reg) (code : KeyCode) (s : State) : State :=
  State.setMode .running ((s.log (.keyDelivered code)).setV kx (BitVec.ofNat 8 code.val)).advance

end Sys2Proof.Machine
end

