-- ==== Sys2Proof/Machine/Index.lean ====
section
/-! DEFINITION. Index-register and memory instructions (spec/43_index_memory.md R200 to R206). A memory instruction
checks its whole range first and either faults with no effect or performs every access (R200); none changes `I` after
an access. -/

namespace Sys2Proof.Machine

/-- `Annn` (R201). -/
def execLdI (nnn : Addr12) (s : State) : Host.Outcome State Fault Refusal := .next (s.setI (targetOf nnn)).advance

/-- `Fx1E` (R202): wraps `mod 65536`, no flag. -/
def execAddIVx (x : Reg) (s : State) : Host.Outcome State Fault Refusal :=
  .next (s.setI (s.i + zext16 (s.getV x))).advance

/-- `Fx29` (R203): `I <- Vx * 5`, not reduced to 8 bits. -/
def execLdFVx (x : Reg) (s : State) : Host.Outcome State Fault Refusal :=
  .next (s.setI (BitVec.ofNat 16 ((s.getV x).toNat * Config.glyphBytes))).advance

/-- `Fx33` (R204): the decimal digits of `Vx` to `I`, `I + 1`, `I + 2`. -/
def execLdBVx (x : Reg) (s : State) : Host.Outcome State Fault Refusal :=
  match s.checkRange s.base 3 with
  | .raised f t => .next (t.enterFault f)
  | .ok _ t =>
    match t.storeBytes s.base (decimalDigits (s.getV x)) with
    | .raised f u => .next (u.enterFault f)
    | .ok _ u => .next u.advance

/-- `Fx55` (R205): `V[k]` to `I + k` for `k` = 0 to `x`. -/
def execLdMemVx (x : Reg) (s : State) : Host.Outcome State Fault Refusal :=
  match s.checkRange s.base (rangeCount x) with
  | .raised f t => .next (t.enterFault f)
  | .ok _ t =>
    match t.storeBytes s.base (s.regRange x) with
    | .raised f u => .next (u.enterFault f)
    | .ok _ u => .next u.advance

/-- `Fx65` (R206): the byte at `I + k` to `V[k]` for `k` = 0 to `x`. -/
def execLdVxMem (x : Reg) (s : State) : Host.Outcome State Fault Refusal :=
  match s.checkRange s.base (rangeCount x) with
  | .raised f t => .next (t.enterFault f)
  | .ok _ t =>
    match t.loadRegs (rangeCount x) 0 with
    | .raised f u => .next (u.enterFault f)
    | .ok _ u => .next u.advance

end Sys2Proof.Machine
end

