-- ==== Sys2Proof/Machine/Timer.lean ====
section
/-! DEFINITION. Random and timer instructions (spec/44_timer_random.md R220 to R224). The tick of the same cycle comes
after the meaning (R144) and stands in Machine/Cycle.lean. -/

namespace Sys2Proof.Machine

/-- `Cxnn` (R221): exactly one byte of the random source, under the mask. -/
def execRnd (x : Reg) (nn : Byte) (s : State) : Host.Outcome State Fault Refusal :=
  .next (s.randDraw.resultOnly x (s.randAnswer &&& nn))

/-- `Fx07` (R222). -/
def execLdVxDt (x : Reg) (s : State) : Host.Outcome State Fault Refusal := .next (s.resultOnly x s.dt)

/-- `Fx15` (R223). -/
def execLdDtVx (x : Reg) (s : State) : Host.Outcome State Fault Refusal := .next (s.setDt (s.getV x)).advance

/-- `Fx18` (R224). -/
def execLdStVx (x : Reg) (s : State) : Host.Outcome State Fault Refusal := .next (s.setSt (s.getV x)).advance

end Sys2Proof.Machine
end

