-- ==== Sys2Proof/Machine/Cycle.lean ====
section
/-! DEFINITION. The cycle around an instruction (spec/40_cycle_and_interfaces.md R132 to R141), what an arrival does
(R129, R131, R141), and a reset that cuts a step short (R142). Machine/Step.lean only calls these. -/

namespace Sys2Proof.Machine

/-- Step 4, first half (R137): `DT` toward 0, staying at 0. -/
def State.tickDelay (s : State) : State := if s.dt = 0 then s else s.setDt (s.dt - 1)

/-- Step 4, second half (R138): `ST` toward 0, one `play()` if it was nonzero. -/
def State.tickSound (s : State) : State := if s.st = 0 then s else (s.setSt (s.st - 1)).audioPlay

/-- Step 4, the tick (R137, R138). -/
def State.tick (s : State) : State := s.tickDelay.tickSound

/-- Steps 4 and 5 (R132). -/
def State.finishCycle (s : State) : State := s.tick.sync

/-- What follows a handler: steps 4 and 5 if the block is still `Running`; a fault ends the cycle (R140) and a key
wait suspends it (R141). -/
def State.afterHandler (s : State) : State :=
  match s.mode with
  | .running => s.finishCycle
  | .idle | .awaitingKey _ | .stopped | .faulted => s

/-- An outcome with what follows the handler. -/
def closeCycle : Host.Outcome State Fault Refusal → Host.Outcome State Fault Refusal
  | .next t => .next t.afterHandler
  | .fault f => .fault f
  | .refused r => .refused r

/-- Steps 2 and 3 (R135, R136): decode and run, or raise `UnimplementedInstruction(op)` (R94). -/
def State.dispatch (op : Word) (s : State) : Host.Outcome State Fault Refusal :=
  match decodeWord op with
  | .ok i => closeCycle (exec i s)
  | .error _ => .next (s.enterFault (.unimplementedInstruction op))

/-- One cycle (R132): the stop check (R133), the fetch (R134), then dispatch. -/
def State.cycle (s : State) : Host.Outcome State Fault Refusal :=
  if s.stopReq then .next (s.setMode .stopped)
  else
    match s.fetch16 s.pc.toNat with
    | .raised f t => .next (t.enterFault f)
    | .ok op t => t.dispatch op

/-- What the block does of itself: a cycle in `Running`, nothing in any other mode (R132). -/
def State.proceed (s : State) : Host.Outcome State Fault Refusal :=
  match s.mode with
  | .running => s.cycle
  | .idle | .awaitingKey _ | .stopped | .faulted => .next s

/-- `start` acts in `Idle` only (R129, R292). -/
def State.onStart (s : State) : State :=
  match s.mode with
  | .idle => s.setMode .running
  | .running | .awaitingKey _ | .stopped | .faulted => s

/-- `closed` sets `stop_req` in any mode but `Idle` (R129, R31). -/
def State.onClosed (s : State) : State :=
  match s.mode with
  | .idle => s
  | .running | .awaitingKey _ | .stopped | .faulted => { s with stopReq := true }

/-- A key code ends the wait, and the suspended cycle goes on with steps 4 and 5 (R141); the keypad delivers one only
while a wait is under way (R126). -/
def State.onKey (code : KeyCode) (s : State) : State :=
  match s.mode with
  | .awaitingKey kx => (s.takeKey kx code).finishCycle
  | .idle | .running | .stopped | .faulted => s

/-- The host writes memory in `Idle`; the entry does nothing in any other mode, where the host is assumed never to
write (R131, R72; notes/assumptions/18.md). -/
def State.onHostFill (cells : List (Fin Config.memSize × Byte)) (s : State) : State :=
  match s.mode with
  | .idle => State.log (.hostFill cells) { s with mem := Memory.fill s.mem cells }
  | .running | .awaitingKey _ | .stopped | .faulted => s

/-- The host leaves a picture in `FB` in `Idle`; likewise (R131, R123; notes/assumptions/18.md). -/
def State.onHostPicture (fb : Display) (dirty : Bool) (s : State) : State :=
  match s.mode with
  | .idle => State.log (.hostPicture fb dirty) { s with fb := fb, dirty := dirty }
  | .running | .awaitingKey _ | .stopped | .faulted => s

/-- What an arrival does. -/
def State.arrive : Option Arrival → State → State
  | none, s => s
  | some .start, s => s.onStart
  | some .closed, s => s.onClosed
  | some (.key code), s => s.onKey code
  | some (.hostFill cells), s => s.onHostFill cells
  | some (.hostPicture fb dirty), s => s.onHostPicture fb dirty

/-- The transactions a step made, going from `s` to `t`, with what the host did in it. -/
def transactionsSince (s t : State) : List Event := t.trace.drop s.trace.length

/-- A reset that strikes after the first `done` transactions of the step from `s` to `t`: the stores outside the block
keep what those transactions did, and the block is reset (R142). -/
def interruptedReset (done : Nat) (s t : State) : State :=
  let es := (transactionsSince s t).take done
  State.blockReset { s.withOutside (es.foldl Outside.after s.outside) with trace := s.trace ++ es }

/-- A step's state `t`, reached from `s`, with the environment's input applied. -/
def applyInput (inp : Input) (s t : State) : State :=
  match inp.resetAfter with
  | none => t.arrive inp.arrives
  | some done => interruptedReset done s (t.arrive inp.arrives)

/-- The input of the coming step: the next listed one, and a free one once the list has ended (R307;
notes/assumptions/7.md). -/
def State.input (s : State) : Input :=
  s.inputs.headD ⟨Config.laterArrival s.moments, Config.laterReset s.moments⟩

/-- The state with the coming step's input taken. -/
def State.dropInput (s : State) : State :=
  { s with inputs := s.inputs.tail, moments := s.moments + if s.inputs.isEmpty then 1 else 0 }

/-- One step: the block proceeds, then the environment's input lands (notes/assumptions/7.md). -/
def State.oneStep (s : State) : Host.Outcome State Fault Refusal :=
  match s.dropInput.proceed with
  | .next t => .next (applyInput s.input s.dropInput t)
  | .fault f => .fault f
  | .refused r => .refused r

/-- The list of inputs with the coming step's reset taken out; where the list has ended, one step in which nothing
happens stands for the free one, so that no free `reset` cuts it. -/
def withoutReset : List Input → List Input
  | [] => [Input.quiet]
  | inp :: rest => { inp with resetAfter := none } :: rest

/-- The state made ready to fetch a word in its next step: the word's two bytes at `pc` (high byte first), at
`ENTRY` where `pc` cannot be fetched from; mode `Running`, no stop request, no fault record, no reset in that step. -/
def State.placeWord (op : Word) (s : State) : State :=
  let pc : Word := if s.pc.toNat + 1 < Config.memSize then s.pc else Config.entry
  { s with
    pc := pc, mem := Memory.load s.mem pc.toNat (wordBytes op), mode := .running, stopReq := false, cause := 0,
    info := 0, inputs := withoutReset s.inputs }

end Sys2Proof.Machine
end

