-- ==== Sys2Proof/Machine/Step.lean ====
section
/-! DEFINITION. The step of the machine, and the state that fetches a given word next. -/

namespace Sys2Proof.Machine

/-- One step of the machine (spec/40_cycle_and_interfaces.md R132): one cycle in `Running`, a wait in the other
modes; then the environment's input of this step. -/
def step (s : State) : Host.Outcome State Fault Refusal := s.oneStep

/-- `s` with the instruction word that spec/opcode_table.json numbers as the low `nbits` bits of `w` stored where the
next step fetches, and ready to run it. -/
def State.withFetchWord (s : State) (nbits w : Nat) : State := s.placeWord (tableWord nbits w)

end Sys2Proof.Machine
end

