-- ==== Sys2Proof/Safety.lean ====
section
/-! DEFINITION. The terms in which claims are stated: the invariant of a state, the observable behaviour of a run
(spec/40_cycle_and_interfaces.md R146), a run without faults, and the frames "nothing changed but". -/

namespace Sys2Proof.Machine

/-- What every state of a run from reset satisfies, whatever the environment does. -/
structure State.Inv (s : State) : Prop where
  /-- Memory is in canonical form and inside the address space (R60). -/
  memory : s.mem.wf = true
  /-- `0 <= sp <= 16` (R26, R40). -/
  stack : s.stack.length ≤ Config.stackDepth
  /-- "A pushed `pc` is at most 0xFFE" (R161). -/
  returns : ∀ w ∈ s.stack, w.toNat + 1 < Config.memSize
  /-- `mode == Faulted` if and only if `fault.cause != 0` (R40). -/
  faulted : s.mode = .faulted ↔ s.cause ≠ 0
  /-- "Codes 5 to 7 are never produced" (R255). -/
  cause : s.cause.toNat ≤ 4
  /-- "Outside mode `Faulted` the record is `none`" (R32). -/
  info : s.cause = 0 → s.info = 0
  /-- `closed` is ignored in `Idle` (R129, R292). -/
  idle : s.mode = .idle → s.stopReq = false
  /-- `Stopped` is reached by the stop check only, and nothing but reset clears the latch (R31, R133). -/
  stopped : s.mode = .stopped → s.stopReq = true
  /-- While waiting for a key, `pc` stays at the `Fx0A` that was fetched (R236). -/
  waiting : ∀ kx, s.mode = .awaitingKey kx → s.pc.toNat + 1 < Config.memSize

/-- The transactions of R146: `DISP`, `AUDIO`, `SYNC`. -/
def Event.observable : Event → Bool
  | .dispClear | .dispGet _ _ _ | .dispSet _ _ _ | .dispMarkDirty | .sync | .play => true
  | .memRead _ _ | .memWrite _ _ | .isKeyDown _ _ | .waitForAnyKey | .keyDelivered _ | .rand _ | .seed
  | .hostFill _ | .hostPicture _ _ => false

/-- What the host does to the stores outside the block (R131), as against a transaction of the block. -/
def Event.byHost : Event → Bool
  | .hostFill _ | .hostPicture _ _ => true
  | .dispClear | .dispGet _ _ _ | .dispSet _ _ _ | .dispMarkDirty | .sync | .play | .memRead _ _ | .memWrite _ _
  | .isKeyDown _ _ | .waitForAnyKey | .keyDelivered _ | .rand _ | .seed => false

/-- The byte at an address after the host has written the listed cells: the last one listed for it, else the old one
(R131). -/
def byteAfterFill (cells : List (Fin Config.memSize × Byte)) (a : Nat) (old : Byte) : Byte :=
  match cells.reverse.find? (fun c => c.1.val == a) with
  | some c => c.2
  | none => old

/-- An access on the `MEM` port (R70): whether it writes, its address, its byte. -/
def Event.access : Event → Option (Bool × Nat × Byte)
  | .memRead a b => some (false, a, b)
  | .memWrite a b => some (true, a, b)
  | .dispClear | .dispGet _ _ _ | .dispSet _ _ _ | .dispMarkDirty | .sync | .play | .isKeyDown _ _ | .waitForAnyKey
  | .keyDelivered _ | .rand _ | .seed | .hostFill _ | .hostPicture _ _ => none

/-- The observable sequence of transactions of a run so far (R146). -/
def State.observed (s : State) : List Event := s.trace.filter Event.observable

/-- One state is reached from another by steps. -/
inductive Reaches : State → State → Prop where
  | refl (s : State) : Reaches s s
  | tail {s t u : State} : Reaches s t → step t = .next u → Reaches s u

/-- A safe run from a state: no state it reaches is `Faulted`. -/
def FaultFree (s : State) : Prop := ∀ t, Reaches s t → t.mode ≠ .faulted

/-- A run from a state never ends: it reaches neither `Stopped` nor `Faulted` (R145). -/
def NeverEnds (s : State) : Prop := ∀ t, Reaches s t → t.mode ≠ .faulted ∧ t.mode ≠ .stopped

/-- The next two bytes can be fetched (R64). -/
abbrev State.Fetchable (s : State) : Prop := s.pc.toNat + 1 < Config.memSize

/-- The opcode at `pc`, big-endian (R64). -/
def State.opcodeAtPc (s : State) : Word := s.byteAt s.pc.toNat ++ s.byteAt (s.pc.toNat + 1)

/-- The state after the fetch of a cycle: nothing but the two read transactions (R134). -/
def State.afterFetch (s : State) (h : s.Fetchable) : State :=
  (s.log (.memRead ⟨s.pc.toNat, Nat.lt_of_succ_lt h⟩ (s.byteAt s.pc.toNat))).log
    (.memRead ⟨s.pc.toNat + 1, h⟩ (s.byteAt (s.pc.toNat + 1)))

/-- The block is about to run a cycle: `Running`, no stop request. -/
abbrev State.Ready (s : State) : Prop := s.mode = .running ∧ s.stopReq = false

/-- The environment does nothing in the coming step, and that is listed. -/
abbrev State.Quiet (s : State) : Prop := s.inputs.head? = some Input.quiet

/-- Every byte of memory reads as before. -/
def SameMemory (s t : State) : Prop := ∀ a, t.byteAt a = s.byteAt a

/-- Nothing changed but `pc`. -/
def OnlyPc (s t : State) : Prop := t = { s with pc := t.pc } ∧ SameMemory s t

/-- Nothing changed but `pc` and the general registers for which `p` holds. -/
def OnlyPcAndRegs (p : Reg → Prop) (s t : State) : Prop :=
  t = { s with pc := t.pc, v := t.v } ∧ (∀ k, ¬ p k → t.getV k = s.getV k) ∧ SameMemory s t

/-- A word the spec writes out reads as an instruction. -/
def ReadsAs (op : Nat) (i : Instr) : Prop := decodeWord (BitVec.ofNat 16 op) = .ok i

/-- The pixels under the set bits of the sprite of `Dxyn` (R232): row `r`, column `c` of the sprite lies at
`(Vx + c) mod 64`, `(Vy + r) mod 32`. -/
def SpriteCovers (s : State) (x y : Reg) (n : Nat) (px : Col) (py : Row) : Prop :=
  ∃ r < n, ∃ c < 8, (s.byteAt (s.i.toNat + r)).getLsbD (7 - c) = true ∧
    px.val = ((s.getV x).toNat + c) % 64 ∧ py.val = ((s.getV y).toNat + r) % 32

/-- The fault an instruction raises in a state, as its `cause` and `info` (R250, R252 to R254, R258). -/
def raisedBy (i : Instr) (s : State) : Option (BitVec 3 × Word) :=
  match i with
  | .ret => if s.stack = [] then some (4, 0) else none
  | .call _ => if s.stack.length = 16 then some (3, s.pc) else none
  | .drw _ _ n => if 1 ≤ n ∧ 4096 ≤ s.i.toNat + n - 1 then some (2, BitVec.ofNat 16 (max s.i.toNat 4096)) else none
  | .ldBVx _ => if 4096 ≤ s.i.toNat + 2 then some (2, BitVec.ofNat 16 (max s.i.toNat 4096)) else none
  | .ldMemVx x => if 4096 ≤ s.i.toNat + x.val then some (2, BitVec.ofNat 16 (max s.i.toNat 4096)) else none
  | .ldVxMem x => if 4096 ≤ s.i.toNat + x.val then some (2, BitVec.ofNat 16 (max s.i.toNat 4096)) else none
  | .cls | .jp _ | .seImm _ _ | .sneImm _ _ | .seReg _ _ | .ldImm _ _ | .addImm _ _ | .ldReg _ _ | .or _ _
  | .and _ _ | .xor _ _ | .addReg _ _ | .sub _ _ | .shr _ _ | .subn _ _ | .shl _ _ | .sneReg _ _ | .ldI _
  | .jpV0 _ | .rnd _ _ | .skp _ | .sknp _ | .ldVxDt _ | .ldVxK _ | .ldDtVx _ | .ldStVx _ | .addIVx _
  | .ldFVx _ => none

/-- The accesses an instruction makes on the `MEM` port when it completes, in order (R70, R73). -/
def accessesOf (i : Instr) (s : State) : List (Bool × Nat × Byte) :=
  let I := s.i.toNat
  match i with
  | .drw _ _ n => (List.range n).map (fun r => (false, I + r, s.byteAt (I + r)))
  | .ldBVx x =>
    [(true, I, BitVec.ofNat 8 ((s.getV x).toNat / 100)), (true, I + 1, BitVec.ofNat 8 ((s.getV x).toNat / 10 % 10)),
     (true, I + 2, BitVec.ofNat 8 ((s.getV x).toNat % 10))]
  | .ldMemVx x => (List.range (x.val + 1)).map (fun k => (true, I + k, s.getV (Fin.ofNat 16 k)))
  | .ldVxMem x => (List.range (x.val + 1)).map (fun k => (false, I + k, s.byteAt (I + k)))
  | .cls | .ret | .jp _ | .call _ | .seImm _ _ | .sneImm _ _ | .seReg _ _ | .ldImm _ _ | .addImm _ _ | .ldReg _ _
  | .or _ _ | .and _ _ | .xor _ _ | .addReg _ _ | .sub _ _ | .shr _ _ | .subn _ _ | .shl _ _ | .sneReg _ _
  | .ldI _ | .jpV0 _ | .rnd _ _ | .skp _ | .sknp _ | .ldVxDt _ | .ldVxK _ | .ldDtVx _ | .ldStVx _ | .addIVx _
  | .ldFVx _ => []

/-- The instructions that write `VF` as a flag (R21). -/
def writesFlag : Instr → Bool
  | .addReg _ _ | .sub _ _ | .shr _ _ | .subn _ _ | .shl _ _ | .drw _ _ _ => true
  | .cls | .ret | .jp _ | .call _ | .seImm _ _ | .sneImm _ _ | .seReg _ _ | .ldImm _ _ | .addImm _ _ | .ldReg _ _
  | .or _ _ | .and _ _ | .xor _ _ | .sneReg _ _ | .ldI _ | .jpV0 _ | .rnd _ _ | .skp _ | .sknp _ | .ldVxDt _
  | .ldVxK _ | .ldDtVx _ | .ldStVx _ | .addIVx _ | .ldFVx _ | .ldBVx _ | .ldMemVx _ | .ldVxMem _ => false

/-- The general registers an instruction's handler names as destination: the table "write `Vx`", "write `V0..Vx`" of
R20. `Fx0A` writes its register when the key arrives. -/
def writesReg (i : Instr) (k : Reg) : Prop :=
  match i with
  | .ldImm x _ | .addImm x _ | .ldReg x _ | .or x _ | .and x _ | .xor x _ | .addReg x _ | .sub x _ | .shr x _
  | .subn x _ | .shl x _ | .rnd x _ | .ldVxDt x => k = x
  | .ldVxMem x => k ≤ x
  | .cls | .ret | .jp _ | .call _ | .seImm _ _ | .sneImm _ _ | .seReg _ _ | .sneReg _ _ | .ldI _ | .jpV0 _
  | .drw _ _ _ | .skp _ | .sknp _ | .ldVxK _ | .ldDtVx _ | .ldStVx _ | .addIVx _ | .ldFVx _ | .ldBVx _
  | .ldMemVx _ => False

/-- `pc` has moved on by `n`, modulo 65536 (R23). -/
def PcMoved (n : Nat) (s t : State) : Prop := t.pc.toNat = (s.pc.toNat + n) % 65536

end Sys2Proof.Machine
end

