-- ==== Sys2Proof/Certificates/Slice0/Obligations.lean ====
section
/-! DEFINITION. The statements for the provers. Each docstring names the rule of spec/ a statement formalises, or says
what it rests on. A clause about a free value holds for every value of it. Statements about `exec` hold in every state
and for every operand the spec gives the instruction; statements about `step` say which environment input they assume.
-/

open Sys2Proof Sys2Proof.Machine

/-! ### Encoding (spec/30_encoding.md) -/

/-- Words of the spec's test vectors (spec/95_test_vectors.md), one for each family and format, decode to the
instruction the spec names; and every word of its rows IL1 to IL7, with the 5121 of CF23, is rejected by name. That
5121 and the words of IL4 are illegal rests on the spec's decision D6 (R95); the spec marks R99, the list of illegal
words, as derived from R96. -/
def Obligations.SpecWordsDecodeAsTheSpecNamesThem : Prop :=
  decodeWord 0x00E0 = .ok .cls ∧ decodeWord 0x00EE = .ok .ret ∧ decodeWord 0x1ABC = .ok (.jp 0xABC) ∧
  decodeWord 0x332A = .ok (.seImm 3 0x2A) ∧ decodeWord 0x9120 = .ok (.sneReg 1 2) ∧
  decodeWord 0x8AB4 = .ok (.addReg 10 11) ∧ decodeWord 0x8FFE = .ok (.shl 15 15) ∧
  decodeWord 0xB300 = .ok (.jpV0 0x300) ∧ decodeWord 0xC10F = .ok (.rnd 1 0x0F) ∧
  decodeWord 0xD12F = .ok (.drw 1 2 15) ∧ decodeWord 0xE19E = .ok (.skp 1) ∧ decodeWord 0xF30A = .ok (.ldVxK 3) ∧
  decodeWord 0xF255 = .ok (.ldMemVx 2) ∧
  decodeWord 0xFFFF = .error (.unimplementedInstruction 0xFFFF) ∧
  decodeWord 0x0000 = .error (.unimplementedInstruction 0x0000) ∧
  decodeWord 0x00E1 = .error (.unimplementedInstruction 0x00E1) ∧
  decodeWord 0x00FE = .error (.unimplementedInstruction 0x00FE) ∧
  decodeWord 0x0123 = .error (.unimplementedInstruction 0x0123) ∧
  decodeWord 0x5001 = .error (.unimplementedInstruction 0x5001) ∧
  decodeWord 0x5121 = .error (.unimplementedInstruction 0x5121) ∧
  decodeWord 0x9001 = .error (.unimplementedInstruction 0x9001) ∧
  decodeWord 0x8008 = .error (.unimplementedInstruction 0x8008) ∧
  decodeWord 0x800F = .error (.unimplementedInstruction 0x800F) ∧
  decodeWord 0xE09F = .error (.unimplementedInstruction 0xE09F) ∧
  decodeWord 0xE000 = .error (.unimplementedInstruction 0xE000) ∧
  decodeWord 0xF000 = .error (.unimplementedInstruction 0xF000) ∧
  decodeWord 0xF0FF = .error (.unimplementedInstruction 0xF0FF) ∧
  decodeWord 0xF01F = .error (.unimplementedInstruction 0xF01F) ∧
  decodeWord 0xF075 = .error (.unimplementedInstruction 0xF075)

/-- Decoding the bytes of any well-formed instruction, whatever bytes follow, gives it back with every operand (R91,
R92, R104). -/
def Obligations.DecodeOfEncodeGivesTheInstructionBack : Prop :=
  ∀ (i : Instr) (rest : List Byte), i.WellFormed → decode (encodeBytes i ++ rest) = .ok (i, rest)

/-- What a word decodes to is well formed and encodes to that word: no bit of a legal opcode is lost. That the ignored
`y` of `8xy6` and `8xyE` comes back is the model's representation (notes/assumptions/19.md: the term keeps the field);
R101 says only that all its values give the same instruction. The strict masks are the spec's decision D6. -/
def Obligations.EncodeOfDecodeGivesTheWordBack : Prop :=
  ∀ (op : Word) (i : Instr), decodeWord op = .ok i → i.WellFormed ∧ encode i = op

/-- R97: "no opcode matches more than one entry". The spec marks R97 as derived from R96. -/
def Obligations.NoOpcodeMatchesTwoTableEntries : Prop :=
  ∀ op : Word, (opcodeTable.filter (fun r => r.accepts op)).length ≤ 1

/-- R98: the two-level decode is "exactly equivalent" to the scan of the table. The spec marks R98 as derived from
R96. -/
def Obligations.PerfectDecodeEqualsTableScan : Prop :=
  ∀ op : Word,
    decodeWord op = match perfectDecode op with
      | some i => .ok i
      | none => .error (.unimplementedInstruction op)

/-- R99: the illegal opcodes are exactly those of its table, by leading nibble and low digits. The spec marks R99 as
derived from R96. -/
def Obligations.IllegalOpcodesAreExactlyThoseListed : Prop :=
  ∀ op : Word,
    decodeWord op = .error (.unimplementedInstruction op) ↔
      (op.toNat / 4096 = 0x0 ∧ op.toNat ≠ 0x00E0 ∧ op.toNat ≠ 0x00EE) ∨
      (op.toNat / 4096 = 0x5 ∧ op.toNat % 16 ≠ 0) ∨
      (op.toNat / 4096 = 0x8 ∧ op.toNat % 16 ∈ [0x8, 0x9, 0xA, 0xB, 0xC, 0xD, 0xF]) ∨
      (op.toNat / 4096 = 0x9 ∧ op.toNat % 16 ≠ 0) ∨
      (op.toNat / 4096 = 0xE ∧ op.toNat % 256 ∉ [0x9E, 0xA1]) ∨
      (op.toNat / 4096 = 0xF ∧ op.toNat % 256 ∉ [0x07, 0x0A, 0x15, 0x18, 0x1E, 0x29, 0x33, 0x55, 0x65])

/-! ### The cycle (spec/40_cycle_and_interfaces.md) -/

/-- R132, R136: when the two bytes at `pc` decode to an instruction, a `Running` block with no stop request runs
exactly that handler on the fetched state, then steps 4 and 5 if it is still `Running`; then the environment's input
of the step lands, which is nothing in a quiet step. That the input lands after the handler, the tick and the sync is
the model's choice (notes/assumptions/7.md), and what a reset inside the step leaves is its reading of R142
(notes/assumptions/11.md). -/
def Obligations.StepRunsTheDecodedInstruction : Prop :=
  ∀ (s : State) (h : s.Fetchable) (i : Instr), s.Ready →
    decode [s.byteAt s.pc.toNat, s.byteAt (s.pc.toNat + 1)] = .ok (i, []) →
    (step s = match exec i (s.dropInput.afterFetch h) with
      | .next t => .next (applyInput s.input s.dropInput t.afterHandler)
      | .fault f => .fault f
      | .refused r => .refused r) ∧
    (s.Quiet → ∀ t, exec i (s.dropInput.afterFetch h) = .next t →
      step s = .next (if t.mode = .running then t.tick.sync else t))

/-- R137, R138, R124: steps 4 and 5 take both timers one toward 0, send one `play()` exactly when `ST` was nonzero,
then one `Sync()`, and change nothing else of the block. That a sync never sets the collaborator's dirty flag is the
model's choice (notes/assumptions/4.md). One `play()` in every tick that finds `ST` nonzero is the spec's decision
D25. -/
def Obligations.CompletedCycleTicksThenSyncs : Prop :=
  ∀ s : State,
    s.finishCycle =
      { s with
        dt := BitVec.ofNat 8 (s.dt.toNat - 1), st := BitVec.ofNat 8 (s.st.toNat - 1),
        trace := s.trace ++ (if s.st.toNat = 0 then [] else [.play]) ++ [.sync],
        dirty := s.finishCycle.dirty, draws := s.finishCycle.draws } ∧
    (s.finishCycle.dirty = true → s.dirty = true)

/-- R138, R147: `n` ticks with no load between take each timer down by `n`, floored at 0, and send one `play()` for
each of the first `ST` of them. The retriggering is the spec's decision D25. -/
def Obligations.RepeatedTicksCountDownAndPlay : Prop :=
  ∀ (n : Nat) (s : State),
    State.tick^[n] s =
      { s with
        dt := BitVec.ofNat 8 (s.dt.toNat - n), st := BitVec.ofNat 8 (s.st.toNat - n),
        trace := s.trace ++ List.replicate (min n s.st.toNat) .play }

/-- R64: the fetch is the big-endian pair; at 4095 it reports 4096, at or above 4096 the address itself; it changes
nothing but the record of transactions. -/
def Obligations.FetchIsBigEndianAndChecked : Prop :=
  ∀ (a : Nat) (s : State),
    (a + 1 < 4096 → ∃ op t, s.fetch16 a = .ok op t ∧
      op.toNat = 256 * (s.byteAt a).toNat + (s.byteAt (a + 1)).toNat ∧ t = { s with trace := t.trace }) ∧
    (a = 4095 → ∃ t, s.fetch16 a = .raised (.memoryFault 4096) t ∧ t = { s with trace := t.trace }) ∧
    (4096 ≤ a → s.fetch16 a = .raised (.memoryFault a) s)

/-- R252, R64: a fetch with `pc >= 0xFFF` faults with `cause` 2 and `info` the lowest address out of range; nothing
else changes and nothing observable happens. Rests on the spec's decisions D1, D16, D17. -/
def Obligations.FetchOutsideMemoryFaults : Prop :=
  ∀ s : State, s.Ready → s.Quiet → ¬ s.Fetchable →
    ∃ t, step s = .next t ∧ t.observed = s.observed ∧
      t = { s with
        mode := .faulted, cause := 2, info := if 4096 ≤ s.pc.toNat then s.pc else 0x1000, inputs := s.inputs.tail,
        trace := t.trace }

/-- R251: a fetched opcode that matches no table entry is the fault `UnimplementedInstruction` with `info` the
opcode, "not a silent no-op"; nothing else changes, and there is no tick, `play()` or sync. No tick and no sync, and
the code 1, are the spec's decisions D16, D17. -/
def Obligations.IllegalOpcodeIsAFatalFault : Prop :=
  ∀ s : State, s.Ready → s.Quiet → s.Fetchable → (∀ r ∈ opcodeTable, r.accepts s.opcodeAtPc = false) →
    ∃ t, step s = .next t ∧ t.observed = s.observed ∧
      t = { s with mode := .faulted, cause := 1, info := s.opcodeAtPc, inputs := s.inputs.tail, trace := t.trace }

/-- R133: if `stop_req` is 1 the mode becomes `Stopped` and nothing else changes. The modes are the spec's decision
D15. -/
def Obligations.StopCheckComesBeforeTheFetch : Prop :=
  ∀ s : State, s.mode = .running → s.stopReq = true → s.Quiet →
    step s = .next { s with mode := .stopped, inputs := s.inputs.tail }

/-- R132: no cycle runs in any mode but `Running`. The modes are the spec's decision D15. -/
def Obligations.NoCycleOutsideRunning : Prop :=
  ∀ s : State, s.mode ≠ .running → s.Quiet → step s = .next { s with inputs := s.inputs.tail }

/-- R292, R295, R131: in `Idle` `start` makes the mode `Running`, the host's bytes are in memory at their addresses and
nowhere else, and the host's picture is in `FB`; each changes nothing else, but that a picture also leaves the dirty
flag as the input says, which is the model's choice (notes/assumptions/4.md). That a load lands whole in one step, a
later byte for an address over an earlier one, is the model's choice (notes/assumptions/22.md); R131 says only that the
host fills memory and may leave any picture. In any other mode `start` does nothing. That the host's writing does
nothing there stands for R131's assumption that it never happens (notes/assumptions/18.md). The order of arrival and step is the model's (notes/assumptions/7.md). The modes are the
spec's decision D15. -/
def Obligations.StartAndLoadingActInIdleOnly : Prop :=
  ∀ (s : State) (a : Arrival) (rest : List Input), s.inputs = ⟨some a, none⟩ :: rest →
    (s.mode = .idle →
      (a = .start → step s = .next { s with mode := .running, inputs := rest }) ∧
      (∀ cells, a = .hostFill cells → ∃ t, step s = .next t ∧
        (∀ k, t.byteAt k = byteAfterFill cells k (s.byteAt k)) ∧
        t = { s with mem := t.mem, inputs := rest, trace := s.trace ++ [.hostFill cells] }) ∧
      (∀ fb dirty, a = .hostPicture fb dirty → step s =
        .next { s with fb := fb, dirty := dirty, inputs := rest, trace := s.trace ++ [.hostPicture fb dirty] })) ∧
    (s.mode ≠ .idle → a ≠ .closed → (∀ code, a ≠ .key code) → step s = step { s with inputs := Input.quiet :: rest })

/-- R31, R129, R142: a `closed` lets the step it arrives in complete, and then sets `stop_req`, in any mode but
`Idle`. The order of arrival and step is the model's (notes/assumptions/7.md). The latch is the spec's decision D15. -/
def Obligations.ClosedLatchesAndCutsNothing : Prop :=
  ∀ (s t : State) (rest : List Input), step { s with inputs := Input.quiet :: rest } = .next t →
    step { s with inputs := ⟨some .closed, none⟩ :: rest } =
      .next (if t.mode = .idle then t else { t with stopReq := true })

/-- R290, R39: `reset`, from any mode and at any point of a step, leaves the block at the values of R39; a reset before
the step's first transaction leaves memory and the display as they were. R142 lets a reset act at any point; that this
is after the first `done` transactions of the step is the model's reading (notes/assumptions/11.md), and that an
arrival of the same step comes before it the model's choice (notes/assumptions/7.md). The values other than `pc`, and
the reset itself, are the spec's decisions D14 to D16. -/
def Obligations.ResetRestoresTheBlock : Prop :=
  ∀ (s : State) (a : Option Arrival) (done : Nat) (rest : List Input), s.inputs = ⟨a, some done⟩ :: rest →
    ∃ t, step s = .next t ∧ t.pc = 0x0200 ∧ (∀ r, t.getV r = 0) ∧ t.i = 0 ∧ t.stack = [] ∧ t.dt = 0 ∧ t.st = 0 ∧
      t.mode = .idle ∧ t.stopReq = false ∧ t.cause = 0 ∧ t.info = 0 ∧ t.inputs = rest ∧
      (done = 0 → t.mem = s.mem ∧ t.fb = s.fb ∧ t.dirty = s.dirty)

/-- R142: after a reset that cuts a step short, memory and display keep exactly what the first `done` transactions of
the uninterrupted step had written. "[decision: see 92_eei_decisions.md D15]"; the representation is
notes/assumptions/11.md. -/
def Obligations.ResetKeepsWhatWasWritten : Prop :=
  ∀ (s t : State) (a : Option Arrival) (done : Nat) (rest : List Input),
    step { s with inputs := ⟨a, none⟩ :: rest } = .next t →
    ∃ es later u, step { s with inputs := ⟨a, some done⟩ :: rest } = .next u ∧
      t.trace = s.trace ++ es ++ later ∧ (es.length = done ∨ es.length < done ∧ later = []) ∧
      u.trace = s.trace ++ es ++ [.seed] ∧ u.outside = es.foldl Outside.after s.outside

/-- R123, R72, R131: memory and display buffer after any step that no reset cuts are what the step's own transactions,
and in `Idle` the host, made of them, in order; nothing else writes them, and outside `Idle` the host does not. That
nothing else changes the dirty flag either is the model's choice (notes/assumptions/4.md): R35 says only that the
collaborator clears it at a moment the document does not give. That the host's writing is ignored outside `Idle` is
notes/assumptions/18.md. The faithful store is the spec's decision D30; what a transaction does outside the block is
`Outside.after`. -/
def Obligations.TransactionsAccountForMemoryAndDisplay : Prop :=
  ∀ s t : State, s.input.resetAfter = none → step s = .next t →
    ∃ es, t.trace = s.trace ++ es ∧ t.outside = es.foldl Outside.after s.outside ∧
      (s.mode ≠ .idle → ∀ e ∈ es, e.byHost = false)

/-- Every step answers a next state: no handler is left without a meaning, and a fault of the block is a state
(R256), not an end of the model. It says that no meaning of the model stops. -/
def Obligations.EveryStepAnswersANextState : Prop := ∀ s : State, ∃ t, step s = .next t

/-- R141: while the block waits for a key, whatever arrives but a key, nothing changes but the stop request latch.
The frozen wait is the spec's decision D13. That a write of memory or display by the host changes nothing there is the
model's choice (notes/assumptions/18.md): R131 only assumes that it never comes. The order of arrival and step is the
model's (notes/assumptions/7.md). -/
def Obligations.KeyWaitFreezesTheMachine : Prop :=
  ∀ (s : State) (kx : Reg) (a : Option Arrival) (rest : List Input), s.mode = .awaitingKey kx →
    s.inputs = ⟨a, none⟩ :: rest → (∀ code, a ≠ some (.key code)) →
    step s = .next { s with inputs := rest, stopReq := s.stopReq || decide (a = some .closed) }

/-- R236, R141: the delivered code goes to the remembered register, `pc` moves past the `Fx0A`, the mode is `Running`
again, and the suspended cycle ends with one tick and one sync. The wait as a mode is the spec's decision D13. -/
def Obligations.DeliveredKeyCompletesTheWait : Prop :=
  ∀ (s : State) (kx : Reg) (code : KeyCode) (rest : List Input), s.mode = .awaitingKey kx →
    s.inputs = ⟨some (.key code), none⟩ :: rest →
    ∃ t, step s = .next t ∧ (t.getV kx).toNat = code.val ∧ (∀ r, r ≠ kx → t.getV r = s.getV r) ∧ PcMoved 2 s t ∧
      SameMemory s t ∧
      t = { s with
        v := t.v, pc := t.pc, mode := .running, inputs := rest, dt := BitVec.ofNat 8 (s.dt.toNat - 1),
        st := BitVec.ofNat 8 (s.st.toNat - 1), dirty := t.dirty, draws := t.draws,
        trace := s.trace ++ [.keyDelivered code] ++ (if s.st.toNat = 0 then [] else [.play]) ++ [.sync] }

/-- R144: the tick of a cycle acts on what its own `Fx15` or `Fx18` loaded, and comes after the read of its own
`Fx07`. The spec marks R144 as derived from R132, R137, R138. -/
def Obligations.TimerLoadedIsTickedInTheSameCycle : Prop :=
  ∀ (s : State) (x : Reg), s.Ready → s.Quiet → s.Fetchable →
    (decodeWord s.opcodeAtPc = .ok (.ldDtVx x) →
      ∃ t, step s = .next t ∧ t.mode = .running ∧ t.dt.toNat = (s.getV x).toNat - 1) ∧
    (decodeWord s.opcodeAtPc = .ok (.ldStVx x) →
      ∃ t, step s = .next t ∧ t.mode = .running ∧ t.st.toNat = (s.getV x).toNat - 1 ∧
        t.trace.count .play = s.trace.count .play + if s.getV x = 0 then 0 else 1) ∧
    (decodeWord s.opcodeAtPc = .ok (.ldVxDt x) →
      ∃ t, step s = .next t ∧ t.mode = .running ∧ t.getV x = s.dt ∧ t.dt.toNat = s.dt.toNat - 1)

/-! ### Invariant -/

/-- The invariant holds after reset (R39, R40). -/
def Obligations.ResetSatisfiesTheInvariant : Prop := State.reset.Inv

/-- R40, R32, R255, R26, R161, R129: every step, whatever the environment does in it, keeps memory in its canonical
form, the stack bounded and its entries fetchable, the fault record present exactly in `Faulted` with a legal code,
and the stop request as the modes require. The spec marks R40 as derived; codes and record are its decision D16. -/
def Obligations.EveryStepKeepsTheInvariant : Prop := ∀ s t : State, s.Inv → step s = .next t → t.Inv

/-! ### Faults (spec/60_exceptions.md) -/

/-- R250, R252 to R254, R256 to R258: an instruction faults exactly when its own condition holds, with the listed
`cause` and `info`, and then has changed nothing but the mode and the record; otherwise it completes without touching
the record. Rests on the spec's decisions D1 to D5 and D16. -/
def Obligations.HandlersFaultExactlyAsListed : Prop :=
  ∀ (i : Instr) (s : State), s.mode ≠ .faulted →
    match raisedBy i s with
    | some (cause, info) => exec i s = .next { s with mode := .faulted, cause := cause, info := info }
    | none => ∃ t, exec i s = .next t ∧ t.mode ≠ .faulted ∧ t.cause = s.cause ∧ t.info = s.info

/-- R257, R140: a cycle that faults leaves the state at the end of the previous cycle plus the fault record: no
register, timer, stack entry, memory byte or pixel changes, and no `play()`, display transaction or sync is sent.
Rests on the spec's decisions D3 and D17. -/
def Obligations.FaultingCycleChangesNothingElse : Prop :=
  ∀ s t : State, s.Ready → s.Quiet → step s = .next t → t.mode = .faulted →
    t.observed = s.observed ∧
    t = { s with
      mode := .faulted, cause := t.cause, info := t.info, inputs := s.inputs.tail, trace := t.trace }

/-! ### Control flow (spec/41_control_flow.md) -/

/-- R161: the newest entry is popped and `pc` is it plus 2; an empty stack is `StackUnderflow`, and then nothing
changes. The underflow fault is the spec's decision D5, its code D16. -/
def Obligations.ReturnPopsAndSkipsTheCall : Prop :=
  ReadsAs 0x00EE .ret ∧
  (∀ (s : State) (rest : List Word) (a : Word), s.stack = rest ++ [a] →
    ∃ t, exec .ret s = .next t ∧ t.pc.toNat = (a.toNat + 2) % 65536 ∧ t = { s with stack := rest, pc := t.pc } ∧
      SameMemory s t) ∧
  (∀ s : State, s.stack = [] → exec .ret s = .next { s with mode := .faulted, cause := 4, info := 0 })

/-- R162: `pc` becomes the 12-bit address, zero-extended; nothing else changes. -/
def Obligations.JumpGoesToItsAddress : Prop :=
  ∀ (nnn : Addr12) (s : State), ReadsAs (0x1000 + nnn.toNat) (.jp nnn) ∧
    ∃ t, exec (.jp nnn) s = .next t ∧ t.pc.toNat = nnn.toNat ∧ OnlyPc s t

/-- R163: the call pushes its own address and goes to `nnn`; on 16 entries it is `StackOverflow` with `info` the
address of the call, and then nothing changes. The bound and the overflow fault are the spec's decision D4, the code
D16. -/
def Obligations.CallPushesItsOwnAddress : Prop :=
  ∀ (nnn : Addr12) (s : State), ReadsAs (0x2000 + nnn.toNat) (.call nnn) ∧
    (s.stack.length ≠ 16 →
      ∃ t, exec (.call nnn) s = .next t ∧ t.pc.toNat = nnn.toNat ∧
        t = { s with stack := s.stack ++ [s.pc], pc := t.pc } ∧ SameMemory s t) ∧
    (s.stack.length = 16 → exec (.call nnn) s = .next { s with mode := .faulted, cause := 3, info := s.pc })

/-- R169: a call and the return at its target leave `pc` at the instruction after the call and the stack as before.
The spec marks R169 as derived from R161, R163. -/
def Obligations.ReturnComesBackAfterTheCall : Prop :=
  ∀ (nnn : Addr12) (s : State), s.stack.length ≠ 16 →
    ∃ t u, exec (.call nnn) s = .next t ∧ t.pc.toNat = nnn.toNat ∧ exec .ret t = .next u ∧ OnlyPc s u ∧ PcMoved 2 s u

/-- R164, R165: the immediate skips move `pc` by 4 exactly when their condition holds, by 2 otherwise, and change
nothing else. -/
def Obligations.ImmediateSkipsCompareAllEightBits : Prop :=
  ∀ (x : Reg) (nn : Byte) (s : State),
    ReadsAs (0x3000 + 256 * x.val + nn.toNat) (.seImm x nn) ∧
    ReadsAs (0x4000 + 256 * x.val + nn.toNat) (.sneImm x nn) ∧
    (∃ t, exec (.seImm x nn) s = .next t ∧ OnlyPc s t ∧ PcMoved (if s.getV x = nn then 4 else 2) s t) ∧
    (∃ t, exec (.sneImm x nn) s = .next t ∧ OnlyPc s t ∧ PcMoved (if s.getV x ≠ nn then 4 else 2) s t)

/-- R166, R167: the register skips, likewise. -/
def Obligations.RegisterSkipsCompareTwoRegisters : Prop :=
  ∀ (x y : Reg) (s : State),
    ReadsAs (0x5000 + 256 * x.val + 16 * y.val) (.seReg x y) ∧
    ReadsAs (0x9000 + 256 * x.val + 16 * y.val) (.sneReg x y) ∧
    (∃ t, exec (.seReg x y) s = .next t ∧ OnlyPc s t ∧ PcMoved (if s.getV x = s.getV y then 4 else 2) s t) ∧
    (∃ t, exec (.sneReg x y) s = .next t ∧ OnlyPc s t ∧ PcMoved (if s.getV x ≠ s.getV y then 4 else 2) s t)

/-- R168: `pc` becomes the base plus `V0`, not reduced to 12 bits; nothing else changes. -/
def Obligations.IndexedJumpAddsV0 : Prop :=
  ∀ (nnn : Addr12) (s : State), ReadsAs (0xB000 + nnn.toNat) (.jpV0 nnn) ∧
    ∃ t, exec (.jpV0 nnn) s = .next t ∧ t.pc.toNat = nnn.toNat + (s.getV 0).toNat ∧ OnlyPc s t

/-! ### Register load, arithmetic and logic (spec/42_alu.md) -/

/-- R181, R182: load and add immediate; the sum wraps, and no register but `Vx` is written, `VF` included. -/
def Obligations.ImmediateLoadAndAddWriteOnlyVx : Prop :=
  ∀ (x : Reg) (nn : Byte) (s : State),
    ReadsAs (0x6000 + 256 * x.val + nn.toNat) (.ldImm x nn) ∧
    ReadsAs (0x7000 + 256 * x.val + nn.toNat) (.addImm x nn) ∧
    (∃ t, exec (.ldImm x nn) s = .next t ∧ t.getV x = nn ∧ OnlyPcAndRegs (· = x) s t ∧ PcMoved 2 s t) ∧
    (∃ t, exec (.addImm x nn) s = .next t ∧ (t.getV x).toNat = ((s.getV x).toNat + nn.toNat) % 256 ∧
      OnlyPcAndRegs (· = x) s t ∧ PcMoved 2 s t)

/-- R183 to R186: copy, or, and, exclusive or, bit by bit; no register but `Vx` is written, `VF` included. -/
def Obligations.CopyAndLogicWriteOnlyVx : Prop :=
  ∀ (x y : Reg) (s : State),
    ReadsAs (0x8000 + 256 * x.val + 16 * y.val) (.ldReg x y) ∧
    ReadsAs (0x8001 + 256 * x.val + 16 * y.val) (.or x y) ∧
    ReadsAs (0x8002 + 256 * x.val + 16 * y.val) (.and x y) ∧
    ReadsAs (0x8003 + 256 * x.val + 16 * y.val) (.xor x y) ∧
    (∃ t, exec (.ldReg x y) s = .next t ∧ t.getV x = s.getV y ∧ OnlyPcAndRegs (· = x) s t ∧ PcMoved 2 s t) ∧
    (∃ t, exec (.or x y) s = .next t ∧
      (∀ j < 8, (t.getV x).getLsbD j = ((s.getV x).getLsbD j || (s.getV y).getLsbD j)) ∧
      OnlyPcAndRegs (· = x) s t ∧ PcMoved 2 s t) ∧
    (∃ t, exec (.and x y) s = .next t ∧
      (∀ j < 8, (t.getV x).getLsbD j = ((s.getV x).getLsbD j && (s.getV y).getLsbD j)) ∧
      OnlyPcAndRegs (· = x) s t ∧ PcMoved 2 s t) ∧
    (∃ t, exec (.xor x y) s = .next t ∧
      (∀ j < 8, (t.getV x).getLsbD j = ((s.getV x).getLsbD j ^^ (s.getV y).getLsbD j)) ∧
      OnlyPcAndRegs (· = x) s t ∧ PcMoved 2 s t)

/-- R187: the sum modulo 256, and `VF` the carry; with `x` = 15 the sum stands in `VF` and the carry is lost. The
order of the two writes for `x` = 15 is the spec's decision D8. -/
def Obligations.RegisterAddReportsTheCarry : Prop :=
  ∀ (x y : Reg) (s : State), ReadsAs (0x8004 + 256 * x.val + 16 * y.val) (.addReg x y) ∧
    ∃ t, exec (.addReg x y) s = .next t ∧
      (t.getV x).toNat = ((s.getV x).toNat + (s.getV y).toNat) % 256 ∧
      (x ≠ 15 → t.getV 15 = if 255 < (s.getV x).toNat + (s.getV y).toNat then 1 else 0) ∧
      OnlyPcAndRegs (fun k => k = x ∨ k = 15) s t ∧ PcMoved 2 s t

/-- R188, R190: the difference modulo 256, and `VF` 1 exactly when the minuend is strictly greater; with `x` = 15 the
difference stands in `VF` and the flag is lost. The order of the two writes for `x` = 15 is the spec's decision D8. -/
def Obligations.SubtractionsReportStrictlyGreater : Prop :=
  ∀ (x y : Reg) (s : State),
    ReadsAs (0x8005 + 256 * x.val + 16 * y.val) (.sub x y) ∧
    ReadsAs (0x8007 + 256 * x.val + 16 * y.val) (.subn x y) ∧
    (∃ t, exec (.sub x y) s = .next t ∧
      (t.getV x).toNat = ((s.getV x).toNat + 256 - (s.getV y).toNat) % 256 ∧
      (x ≠ 15 → t.getV 15 = if (s.getV y).toNat < (s.getV x).toNat then 1 else 0) ∧
      OnlyPcAndRegs (fun k => k = x ∨ k = 15) s t ∧ PcMoved 2 s t) ∧
    (∃ t, exec (.subn x y) s = .next t ∧
      (t.getV x).toNat = ((s.getV y).toNat + 256 - (s.getV x).toNat) % 256 ∧
      (x ≠ 15 → t.getV 15 = if (s.getV x).toNat < (s.getV y).toNat then 1 else 0) ∧
      OnlyPcAndRegs (fun k => k = x ∨ k = 15) s t ∧ PcMoved 2 s t)

/-- R189, R191: `Vx` shifted by one bit, whatever `y` is, and `VF` the bit shifted out; with `x` = 15 the shifted
value stands in `VF` and the bit is lost. The order of the two writes for `x` = 15 is the spec's decision D8. -/
def Obligations.ShiftsReportTheBitShiftedOut : Prop :=
  ∀ (x y : Reg) (s : State),
    ReadsAs (0x8006 + 256 * x.val + 16 * y.val) (.shr x y) ∧
    ReadsAs (0x800E + 256 * x.val + 16 * y.val) (.shl x y) ∧
    (∃ t, exec (.shr x y) s = .next t ∧ (t.getV x).toNat = (s.getV x).toNat / 2 ∧
      (x ≠ 15 → (t.getV 15).toNat = (s.getV x).toNat % 2) ∧
      OnlyPcAndRegs (fun k => k = x ∨ k = 15) s t ∧ PcMoved 2 s t) ∧
    (∃ t, exec (.shl x y) s = .next t ∧ (t.getV x).toNat = (s.getV x).toNat * 2 % 256 ∧
      (x ≠ 15 → (t.getV 15).toNat = (s.getV x).toNat / 128) ∧
      OnlyPcAndRegs (fun k => k = x ∨ k = 15) s t ∧ PcMoved 2 s t)

/-! ### Index register and memory (spec/43_index_memory.md) -/

/-- R201 to R203: `I` loaded, added to with a 16-bit wrap, or set to five times `Vx`; nothing else but `pc` changes,
and no value of `I` faults. No flag and the wrap of `Fx1E` are the spec's decision D20, the unmasked `Vx * 5` its
D19. -/
def Obligations.IndexRegisterInstructionsWriteOnlyI : Prop :=
  ∀ (nnn : Addr12) (x : Reg) (s : State),
    ReadsAs (0xA000 + nnn.toNat) (.ldI nnn) ∧ ReadsAs (0xF01E + 256 * x.val) (.addIVx x) ∧
    ReadsAs (0xF029 + 256 * x.val) (.ldFVx x) ∧
    (∃ t, exec (.ldI nnn) s = .next t ∧ t.i.toNat = nnn.toNat ∧ t = { s with i := t.i, pc := t.pc } ∧
      SameMemory s t ∧ PcMoved 2 s t) ∧
    (∃ t, exec (.addIVx x) s = .next t ∧ t.i.toNat = (s.i.toNat + (s.getV x).toNat) % 65536 ∧
      t = { s with i := t.i, pc := t.pc } ∧ SameMemory s t ∧ PcMoved 2 s t) ∧
    (∃ t, exec (.ldFVx x) s = .next t ∧ t.i.toNat = (s.getV x).toNat * 5 ∧ t = { s with i := t.i, pc := t.pc } ∧
      SameMemory s t ∧ PcMoved 2 s t)

/-- R204: the three decimal digits of `Vx` at `I`, `I + 1`, `I + 2`, every other byte and register unchanged; past
the end of memory `MemoryFault` and no byte is written. The fault and its having no partial effect are the spec's
decisions D1, D3, D16; `I` unchanged is its D21. -/
def Obligations.DecimalStoreWritesThreeDigits : Prop :=
  ∀ (x : Reg) (s : State), ReadsAs (0xF033 + 256 * x.val) (.ldBVx x) ∧
    (s.i.toNat + 2 < 4096 →
      ∃ t, exec (.ldBVx x) s = .next t ∧ PcMoved 2 s t ∧
        t = { s with pc := t.pc, mem := t.mem, trace := t.trace } ∧
        (t.byteAt s.i.toNat).toNat = (s.getV x).toNat / 100 ∧
        (t.byteAt (s.i.toNat + 1)).toNat = (s.getV x).toNat / 10 % 10 ∧
        (t.byteAt (s.i.toNat + 2)).toNat = (s.getV x).toNat % 10 ∧
        ∀ a, a < s.i.toNat ∨ s.i.toNat + 2 < a → t.byteAt a = s.byteAt a) ∧
    (4096 ≤ s.i.toNat + 2 →
      exec (.ldBVx x) s =
        .next { s with mode := .faulted, cause := 2, info := BitVec.ofNat 16 (max s.i.toNat 4096) })

/-- R205: `V[k]` at `I + k` for `k` = 0 to `x`, every other byte and register unchanged, `I` included; past the end
of memory `MemoryFault` and no byte is written. The fault and its having no partial effect are the spec's decisions
D1, D3, D16; `I` unchanged is its D21. -/
def Obligations.RegisterStoreWritesTheRange : Prop :=
  ∀ (x : Reg) (s : State), ReadsAs (0xF055 + 256 * x.val) (.ldMemVx x) ∧
    (s.i.toNat + x.val < 4096 →
      ∃ t, exec (.ldMemVx x) s = .next t ∧ PcMoved 2 s t ∧
        t = { s with pc := t.pc, mem := t.mem, trace := t.trace } ∧
        (∀ k : Reg, k ≤ x → t.byteAt (s.i.toNat + k.val) = s.getV k) ∧
        ∀ a, a < s.i.toNat ∨ s.i.toNat + x.val < a → t.byteAt a = s.byteAt a) ∧
    (4096 ≤ s.i.toNat + x.val →
      exec (.ldMemVx x) s =
        .next { s with mode := .faulted, cause := 2, info := BitVec.ofNat 16 (max s.i.toNat 4096) })

/-- R206: the byte at `I + k` in `V[k]` for `k` = 0 to `x`, every other register and all of memory unchanged; past
the end of memory `MemoryFault` and no register is written. The fault and its having no partial effect are the spec's
decisions D1, D3, D16; `I` unchanged is its D21. -/
def Obligations.RegisterLoadReadsTheRange : Prop :=
  ∀ (x : Reg) (s : State), ReadsAs (0xF065 + 256 * x.val) (.ldVxMem x) ∧
    (s.i.toNat + x.val < 4096 →
      ∃ t, exec (.ldVxMem x) s = .next t ∧ PcMoved 2 s t ∧
        t = { s with pc := t.pc, v := t.v, trace := t.trace } ∧ SameMemory s t ∧
        ∀ k : Reg, t.getV k = if k ≤ x then s.byteAt (s.i.toNat + k.val) else s.getV k) ∧
    (4096 ≤ s.i.toNat + x.val →
      exec (.ldVxMem x) s =
        .next { s with mode := .faulted, cause := 2, info := BitVec.ofNat 16 (max s.i.toNat 4096) })

/-- R70, R73: the accesses each instruction makes on the `MEM` port when it completes, in ascending order; every
instruction but `Dxyn`, `Fx33`, `Fx55`, `Fx65` makes none. The ascending order is the spec's decision D11. -/
def Obligations.HandlersAccessMemoryAsListed : Prop :=
  ∀ (i : Instr) (s t : State), raisedBy i s = none → exec i s = .next t →
    ∃ es, t.trace = s.trace ++ es ∧ es.filterMap Event.access = accessesOf i s

/-- R76: a fetch right after a register store reads the stored bytes, first byte high. The spec marks R76 as derived
from R64, R72. -/
def Obligations.FetchSeesBytesJustStored : Prop :=
  ∀ (x k : Reg) (s t : State), s.i.toNat + x.val < 4096 → k < x → exec (.ldMemVx x) s = .next t →
    ∃ op u, t.fetch16 (s.i.toNat + k.val) = .ok op u ∧
      op.toNat = 256 * (s.getV k).toNat + (s.getV (k + 1)).toNat

/-! ### Random source and timers (spec/44_timer_random.md) -/

/-- R221: one byte of the random source under the mask, whatever byte it is; the bits that are 0 in `nn` are 0 in the
result. The byte is a free value (notes/assumptions/5.md), an unconstrained draw by the spec's decision D18. -/
def Obligations.RandomByteComesUnderTheMask : Prop :=
  ∀ (x : Reg) (nn : Byte) (s : State), ReadsAs (0xC000 + 256 * x.val + nn.toNat) (.rnd x nn) ∧
    ∃ t r, exec (.rnd x nn) s = .next t ∧ r = Config.randomByte s.draws ∧
      (∀ j < 8, (t.getV x).getLsbD j = (nn.getLsbD j && r.getLsbD j)) ∧ (∀ k, k ≠ x → t.getV k = s.getV k) ∧
      t = { s with v := t.v, pc := t.pc, draws := s.draws + 1, trace := s.trace ++ [.rand r] } ∧
      SameMemory s t ∧ PcMoved 2 s t

/-- R222 to R224: the delay timer read into `Vx`; `Vx` loaded into the delay or the sound timer; nothing else but `pc`
changes. -/
def Obligations.TimerInstructionsMoveOneByte : Prop :=
  ∀ (x : Reg) (s : State),
    ReadsAs (0xF007 + 256 * x.val) (.ldVxDt x) ∧ ReadsAs (0xF015 + 256 * x.val) (.ldDtVx x) ∧
    ReadsAs (0xF018 + 256 * x.val) (.ldStVx x) ∧
    (∃ t, exec (.ldVxDt x) s = .next t ∧ t.getV x = s.dt ∧ OnlyPcAndRegs (· = x) s t ∧ PcMoved 2 s t) ∧
    (∃ t, exec (.ldDtVx x) s = .next t ∧ t = { s with dt := s.getV x, pc := t.pc } ∧ SameMemory s t ∧
      PcMoved 2 s t) ∧
    (∃ t, exec (.ldStVx x) s = .next t ∧ t = { s with st := s.getV x, pc := t.pc } ∧ SameMemory s t ∧
      PcMoved 2 s t)

/-! ### Display and keypad (spec/45_display_keypad.md) -/

/-- R231: every pixel becomes 0, `VF` and everything else of the block but `pc` is unchanged, and the one transaction
is the clear: no `markDirty`. Whether the collaborator marks itself dirty is a free value (notes/assumptions/4.md). -/
def Obligations.ClearDarkensEveryPixel : Prop :=
  ReadsAs 0x00E0 .cls ∧
  ∀ s : State, ∃ t, exec .cls s = .next t ∧ (∀ px py, t.pixel px py = false) ∧ PcMoved 2 s t ∧ SameMemory s t ∧
    t = { s with
      pc := t.pc, fb := t.fb, dirty := t.dirty, draws := t.draws, trace := s.trace ++ [.dispClear] }

/-- R232: the sprite is exclusive-ored into the display at wrapped coordinates, `VF` is 1 exactly when a set pixel
was turned off, the display is marked dirty when a clear pixel was turned on; the operands are read before `VF` is
reset. Nothing else changes: no other register, no byte of memory. Operands before the flag reset, bit 7 as column 0
and the dirty rule are the spec's decisions D9, D10, D31. -/
def Obligations.DrawExclusiveOrsTheSprite : Prop :=
  ∀ (x y : Reg) (n : Nat) (s : State), n < 16 → n = 0 ∨ s.i.toNat + n ≤ 4096 →
    ReadsAs (0xD000 + 256 * x.val + 16 * y.val + n) (.drw x y n) ∧
    ∃ t, exec (.drw x y n) s = .next t ∧
      (∀ px py, SpriteCovers s x y n px py → t.pixel px py = !s.pixel px py) ∧
      (∀ px py, ¬ SpriteCovers s x y n px py → t.pixel px py = s.pixel px py) ∧
      ((∃ px py, SpriteCovers s x y n px py ∧ s.pixel px py = true) → t.getV 15 = 1) ∧
      ((∀ px py, SpriteCovers s x y n px py → s.pixel px py = false) → t.getV 15 = 0) ∧
      (t.dirty = true ↔ s.dirty = true ∨ ∃ px py, SpriteCovers s x y n px py ∧ s.pixel px py = false) ∧
      (∀ k, k ≠ 15 → t.getV k = s.getV k) ∧ SameMemory s t ∧ PcMoved 2 s t ∧
      t = { s with v := t.v, pc := t.pc, fb := t.fb, dirty := t.dirty, trace := t.trace }

/-- R232 (f): one `markDirty` for each pixel that goes from 0 to 1, none for a pixel that goes from 1 to 0. The
policy is the spec's decision D31. -/
def Obligations.DrawMarksDirtyOncePerLitPixel : Prop :=
  ∀ (x y : Reg) (n : Nat) (s t : State), n < 16 → n = 0 ∨ s.i.toNat + n ≤ 4096 → exec (.drw x y n) s = .next t →
    t.trace.count .dispMarkDirty =
      s.trace.count .dispMarkDirty +
        (Finset.univ.filter (fun p : Col × Row => s.pixel p.1 p.2 = false ∧ t.pixel p.1 p.2 = true)).card

/-- R233: drawing the same sprite twice at the same coordinates restores the display exactly; and if the first draw
turned no pixel off and the sprite has a set bit, the second sets `VF` to 1. The spec marks R233 as derived from
R232. -/
def Obligations.DrawingTwiceRestoresTheDisplay : Prop :=
  ∀ (x y : Reg) (n : Nat) (s t : State), n < 16 → n = 0 ∨ s.i.toNat + n ≤ 4096 → exec (.drw x y n) s = .next t →
    t.getV x = s.getV x → t.getV y = s.getV y →
    ∃ u, exec (.drw x y n) t = .next u ∧ u.fb = s.fb ∧
      (t.getV 15 = 0 → (∃ px py, SpriteCovers s x y n px py) → u.getV 15 = 1)

/-- R234, R235: one `isKeyDown` query with all 8 bits of `Vx`; the skip is taken on the answer 1, or 0, whatever the
keypad answers. The answer is a free value (notes/assumptions/6.md). Passing codes above 15 is the spec's decision
D12. -/
def Obligations.KeySkipsFollowTheKeypad : Prop :=
  ∀ (x : Reg) (s : State),
    ReadsAs (0xE09E + 256 * x.val) (.skp x) ∧ ReadsAs (0xE0A1 + 256 * x.val) (.sknp x) ∧
    ∃ d, d = Config.keyDown s.draws (s.getV x) ∧
      (∃ t, exec (.skp x) s = .next t ∧ PcMoved (if d = true then 4 else 2) s t ∧ SameMemory s t ∧
        t = { s with pc := t.pc, draws := s.draws + 1, trace := s.trace ++ [.isKeyDown (s.getV x) d] }) ∧
      (∃ t, exec (.sknp x) s = .next t ∧ PcMoved (if d = false then 4 else 2) s t ∧ SameMemory s t ∧
        t = { s with pc := t.pc, draws := s.draws + 1, trace := s.trace ++ [.isKeyDown (s.getV x) d] })

/-- R141, R236 part 1: the handler remembers `x`, starts `waitForAnyKey()` and suspends the block; `pc`, registers,
timers and memory stay, and the cycle it stands in neither ticks nor syncs. The wait as a mode is the spec's decision
D13. -/
def Obligations.KeyWaitSuspendsTheCycle : Prop :=
  ∀ (x : Reg) (s : State), ReadsAs (0xF00A + 256 * x.val) (.ldVxK x) ∧
    exec (.ldVxK x) s = .next { s with mode := .awaitingKey x, trace := s.trace ++ [.waitForAnyKey] } ∧
    (s.Fetchable → s.Ready → s.Quiet → decodeWord s.opcodeAtPc = .ok (.ldVxK x) →
      ∃ t, step s = .next t ∧ t.mode = .awaitingKey x ∧ t.observed = s.observed ∧
        t = { s with mode := t.mode, inputs := s.inputs.tail, trace := t.trace })

/-! ### Rules about the whole instruction set -/

/-- R23: where each instruction that does not fault leaves `pc`, the skips by their conditions. The keypad's answer in
the conditions of `Ex9E` and `ExA1` is a free value (notes/assumptions/6.md). The reduction modulo 65536 is the spec's
decision D22. -/
def Obligations.ProgramCounterFollowsTheTable : Prop :=
  ∀ (i : Instr) (s t : State), raisedBy i s = none → exec i s = .next t →
    match i with
    | .jp nnn | .call nnn => t.pc.toNat = nnn.toNat
    | .ret => ∃ rest a, s.stack = rest ++ [a] ∧ t.pc.toNat = (a.toNat + 2) % 65536
    | .jpV0 nnn => t.pc.toNat = (nnn.toNat + (s.getV 0).toNat) % 65536
    | .seImm x nn => PcMoved (if s.getV x = nn then 4 else 2) s t
    | .sneImm x nn => PcMoved (if s.getV x ≠ nn then 4 else 2) s t
    | .seReg x y => PcMoved (if s.getV x = s.getV y then 4 else 2) s t
    | .sneReg x y => PcMoved (if s.getV x ≠ s.getV y then 4 else 2) s t
    | .skp x => PcMoved (if Config.keyDown s.draws (s.getV x) = true then 4 else 2) s t
    | .sknp x => PcMoved (if Config.keyDown s.draws (s.getV x) = false then 4 else 2) s t
    | .ldVxK _ => t.pc = s.pc
    | .cls | .ldImm _ _ | .addImm _ _ | .ldReg _ _ | .or _ _ | .and _ _ | .xor _ _ | .addReg _ _ | .sub _ _
    | .shr _ _ | .subn _ _ | .shl _ _ | .ldI _ | .rnd _ _ | .drw _ _ _ | .ldVxDt _ | .ldDtVx _ | .ldStVx _
    | .addIVx _ | .ldFVx _ | .ldBVx _ | .ldMemVx _ | .ldVxMem _ => PcMoved 2 s t

/-- R20, R21: no handler writes a general register but its own destinations, and `VF` only as one of the six flag
writers; those write it 0 or 1 unless it is their destination. The spec marks the table of R20 as derived. -/
def Obligations.OnlyNamedRegistersAreWritten : Prop :=
  ∀ (i : Instr) (s t : State), exec i s = .next t →
    (∀ k, ¬ writesReg i k → ¬ (writesFlag i = true ∧ k = 15) → t.getV k = s.getV k) ∧
    (writesFlag i = true → raisedBy i s = none → ¬ writesReg i 15 → t.getV 15 = 0 ∨ t.getV 15 = 1)

/-- R24, R26, R28, R29, R122: `I` is written by `Annn`, `Fx1E`, `Fx29` only, the stack by `2nnn` and `00EE` only, the
delay and sound timers by `Fx15` and `Fx18` only (and the tick), the display by `00E0` and `Dxyn` only. That memory
instructions leave `I` is the spec's decision D21. -/
def Obligations.EachStoreHasOnlyItsWriters : Prop :=
  ∀ (i : Instr) (s t : State), exec i s = .next t →
    (t.i = s.i ∨ ∃ nnn x, i = .ldI nnn ∨ i = .addIVx x ∨ i = .ldFVx x) ∧
    (t.stack = s.stack ∨ i = .ret ∨ ∃ nnn, i = .call nnn) ∧
    (t.dt = s.dt ∨ ∃ x, i = .ldDtVx x) ∧ (t.st = s.st ∨ ∃ x, i = .ldStVx x) ∧
    (t.fb = s.fb ∨ i = .cls ∨ ∃ x y n, i = .drw x y n) ∧
    (SameMemory s t ∨ ∃ x, i = .ldBVx x ∨ i = .ldMemVx x)

/-- R121, R122, R125 to R128, R139: which instruction's handler makes which transaction. No handler sends `play()` or a
sync: those belong to the tick and the sync of the cycle. -/
def Obligations.HandlersUseThePortsAsListed : Prop :=
  ∀ (i : Instr) (s t : State), exec i s = .next t →
    ∃ es, t.trace = s.trace ++ es ∧ ∀ e ∈ es,
      match e with
      | .memRead _ _ => (∃ x y n, i = .drw x y n) ∨ ∃ x, i = .ldVxMem x
      | .memWrite _ _ => ∃ x, i = .ldBVx x ∨ i = .ldMemVx x
      | .dispClear => i = .cls
      | .dispGet _ _ _ | .dispSet _ _ _ | .dispMarkDirty => ∃ x y n, i = .drw x y n
      | .isKeyDown code _ => ∃ x, code = s.getV x ∧ (i = .skp x ∨ i = .sknp x)
      | .waitForAnyKey => ∃ x, i = .ldVxK x
      | .rand _ => ∃ x nn, i = .rnd x nn
      | .sync | .play | .keyDelivered _ | .seed | .hostFill _ | .hostPicture _ _ => False

/-- R38, R31, R133: no instruction reads or writes the stop request: with it set otherwise, a handler does the same. The
latch is the spec's decision D15. -/
def Obligations.NoInstructionSeesTheStopRequest : Prop :=
  ∀ (i : Instr) (s : State) (b : Bool),
    ∃ t, exec i s = .next t ∧ t.stopReq = s.stopReq ∧ exec i { s with stopReq := b } = .next { t with stopReq := b }

/-- R29: "No instruction reads `ST`": with another value in the sound timer a handler does the same, and the value
stays, unless the handler is the one that loads it. -/
def Obligations.NoInstructionReadsTheSoundTimer : Prop :=
  ∀ (i : Instr) (s : State) (b : Byte),
    ∃ t, exec i s = .next t ∧
      ((∃ x, i = .ldStVx x) → exec i { s with st := b } = .next t) ∧
      ((∀ x, i ≠ .ldStVx x) → exec i { s with st := b } = .next { t with st := b })

/-! ### Launch (spec/20_memory.md R66, spec/70_reset_and_hazards.md R291 to R294) -/

/-- R291 to R293: after the launch, glyph `d` of the font lies at `d * 5` and the program at 0x200, and the first step
takes `start` to `Running` with `pc` = 0x0200. The font bytes are PRESUMED (notes/assumptions/14.md), the launch as a
state is notes/assumptions/8.md. -/
def Obligations.LaunchPlacesFontAndProgram : Prop :=
  ∀ rom : List Byte, rom.length ≤ 3584 →
    (∀ d < 16, ∀ j < 5, some ((State.launch rom).byteAt (d * 5 + j)) = Config.fontBytes[d * 5 + j]?) ∧
    (∀ k (h : k < rom.length), (State.launch rom).byteAt (0x200 + k) = rom[k]) ∧
    ∃ t, step (State.launch rom) = .next t ∧ t.Ready ∧ t.Fetchable ∧ t.pc = 0x0200 ∧
      SameMemory (State.launch rom) t
end

