-- ==== Sys2Proof/Laws/State.lean ====
section
/-! SUPPORT. One lemma per field of State per update, true by rfl: what each named update of Machine/Ops.lean and
Machine/Cycle.lean leaves in each field, and in each reader of a field it does not write. -/

namespace Sys2Proof.Machine

/-! ### log -/

@[simp] theorem State.log_v (e : Event) (s : State) : (s.log e).v = s.v := rfl
@[simp] theorem State.log_i (e : Event) (s : State) : (s.log e).i = s.i := rfl
@[simp] theorem State.log_pc (e : Event) (s : State) : (s.log e).pc = s.pc := rfl
@[simp] theorem State.log_stack (e : Event) (s : State) : (s.log e).stack = s.stack := rfl
@[simp] theorem State.log_dt (e : Event) (s : State) : (s.log e).dt = s.dt := rfl
@[simp] theorem State.log_st (e : Event) (s : State) : (s.log e).st = s.st := rfl
@[simp] theorem State.log_mode (e : Event) (s : State) : (s.log e).mode = s.mode := rfl
@[simp] theorem State.log_stopReq (e : Event) (s : State) : (s.log e).stopReq = s.stopReq := rfl
@[simp] theorem State.log_cause (e : Event) (s : State) : (s.log e).cause = s.cause := rfl
@[simp] theorem State.log_info (e : Event) (s : State) : (s.log e).info = s.info := rfl
@[simp] theorem State.log_mem (e : Event) (s : State) : (s.log e).mem = s.mem := rfl
@[simp] theorem State.log_fb (e : Event) (s : State) : (s.log e).fb = s.fb := rfl
@[simp] theorem State.log_dirty (e : Event) (s : State) : (s.log e).dirty = s.dirty := rfl
@[simp] theorem State.log_draws (e : Event) (s : State) : (s.log e).draws = s.draws := rfl
@[simp] theorem State.log_inputs (e : Event) (s : State) : (s.log e).inputs = s.inputs := rfl
@[simp] theorem State.log_moments (e : Event) (s : State) : (s.log e).moments = s.moments := rfl
@[simp] theorem State.log_trace (e : Event) (s : State) : (s.log e).trace = s.trace ++ [e] := rfl
@[simp] theorem State.log_getV (e : Event) (s : State) (r : Reg) : (s.log e).getV r = s.getV r := rfl
@[simp] theorem State.log_byteAt (e : Event) (s : State) (a : Nat) : (s.log e).byteAt a = s.byteAt a := rfl
@[simp] theorem State.log_pixel (e : Event) (s : State) (px : Col) (py : Row) : (s.log e).pixel px py = s.pixel px py := rfl
@[simp] theorem State.log_base (e : Event) (s : State) : (s.log e).base = s.base := rfl
@[simp] theorem State.log_sp (e : Event) (s : State) : (s.log e).sp = s.sp := rfl

/-! ### setV -/

@[simp] theorem State.setV_v (k : Reg) (b : Byte) (s : State) : (s.setV k b).v = s.v.set k b := rfl
@[simp] theorem State.setV_i (k : Reg) (b : Byte) (s : State) : (s.setV k b).i = s.i := rfl
@[simp] theorem State.setV_pc (k : Reg) (b : Byte) (s : State) : (s.setV k b).pc = s.pc := rfl
@[simp] theorem State.setV_stack (k : Reg) (b : Byte) (s : State) : (s.setV k b).stack = s.stack := rfl
@[simp] theorem State.setV_dt (k : Reg) (b : Byte) (s : State) : (s.setV k b).dt = s.dt := rfl
@[simp] theorem State.setV_st (k : Reg) (b : Byte) (s : State) : (s.setV k b).st = s.st := rfl
@[simp] theorem State.setV_mode (k : Reg) (b : Byte) (s : State) : (s.setV k b).mode = s.mode := rfl
@[simp] theorem State.setV_stopReq (k : Reg) (b : Byte) (s : State) : (s.setV k b).stopReq = s.stopReq := rfl
@[simp] theorem State.setV_cause (k : Reg) (b : Byte) (s : State) : (s.setV k b).cause = s.cause := rfl
@[simp] theorem State.setV_info (k : Reg) (b : Byte) (s : State) : (s.setV k b).info = s.info := rfl
@[simp] theorem State.setV_mem (k : Reg) (b : Byte) (s : State) : (s.setV k b).mem = s.mem := rfl
@[simp] theorem State.setV_fb (k : Reg) (b : Byte) (s : State) : (s.setV k b).fb = s.fb := rfl
@[simp] theorem State.setV_dirty (k : Reg) (b : Byte) (s : State) : (s.setV k b).dirty = s.dirty := rfl
@[simp] theorem State.setV_draws (k : Reg) (b : Byte) (s : State) : (s.setV k b).draws = s.draws := rfl
@[simp] theorem State.setV_inputs (k : Reg) (b : Byte) (s : State) : (s.setV k b).inputs = s.inputs := rfl
@[simp] theorem State.setV_moments (k : Reg) (b : Byte) (s : State) : (s.setV k b).moments = s.moments := rfl
@[simp] theorem State.setV_trace (k : Reg) (b : Byte) (s : State) : (s.setV k b).trace = s.trace := rfl
@[simp] theorem State.setV_byteAt (k : Reg) (b : Byte) (s : State) (a : Nat) : (s.setV k b).byteAt a = s.byteAt a := rfl
@[simp] theorem State.setV_pixel (k : Reg) (b : Byte) (s : State) (px : Col) (py : Row) : (s.setV k b).pixel px py = s.pixel px py := rfl
@[simp] theorem State.setV_base (k : Reg) (b : Byte) (s : State) : (s.setV k b).base = s.base := rfl
@[simp] theorem State.setV_sp (k : Reg) (b : Byte) (s : State) : (s.setV k b).sp = s.sp := rfl

/-! ### setI -/

@[simp] theorem State.setI_v (w : Word) (s : State) : (s.setI w).v = s.v := rfl
@[simp] theorem State.setI_i (w : Word) (s : State) : (s.setI w).i = w := rfl
@[simp] theorem State.setI_pc (w : Word) (s : State) : (s.setI w).pc = s.pc := rfl
@[simp] theorem State.setI_stack (w : Word) (s : State) : (s.setI w).stack = s.stack := rfl
@[simp] theorem State.setI_dt (w : Word) (s : State) : (s.setI w).dt = s.dt := rfl
@[simp] theorem State.setI_st (w : Word) (s : State) : (s.setI w).st = s.st := rfl
@[simp] theorem State.setI_mode (w : Word) (s : State) : (s.setI w).mode = s.mode := rfl
@[simp] theorem State.setI_stopReq (w : Word) (s : State) : (s.setI w).stopReq = s.stopReq := rfl
@[simp] theorem State.setI_cause (w : Word) (s : State) : (s.setI w).cause = s.cause := rfl
@[simp] theorem State.setI_info (w : Word) (s : State) : (s.setI w).info = s.info := rfl
@[simp] theorem State.setI_mem (w : Word) (s : State) : (s.setI w).mem = s.mem := rfl
@[simp] theorem State.setI_fb (w : Word) (s : State) : (s.setI w).fb = s.fb := rfl
@[simp] theorem State.setI_dirty (w : Word) (s : State) : (s.setI w).dirty = s.dirty := rfl
@[simp] theorem State.setI_draws (w : Word) (s : State) : (s.setI w).draws = s.draws := rfl
@[simp] theorem State.setI_inputs (w : Word) (s : State) : (s.setI w).inputs = s.inputs := rfl
@[simp] theorem State.setI_moments (w : Word) (s : State) : (s.setI w).moments = s.moments := rfl
@[simp] theorem State.setI_trace (w : Word) (s : State) : (s.setI w).trace = s.trace := rfl
@[simp] theorem State.setI_getV (w : Word) (s : State) (r : Reg) : (s.setI w).getV r = s.getV r := rfl
@[simp] theorem State.setI_byteAt (w : Word) (s : State) (a : Nat) : (s.setI w).byteAt a = s.byteAt a := rfl
@[simp] theorem State.setI_pixel (w : Word) (s : State) (px : Col) (py : Row) : (s.setI w).pixel px py = s.pixel px py := rfl
@[simp] theorem State.setI_sp (w : Word) (s : State) : (s.setI w).sp = s.sp := rfl

/-! ### setPc -/

@[simp] theorem State.setPc_v (w : Word) (s : State) : (s.setPc w).v = s.v := rfl
@[simp] theorem State.setPc_i (w : Word) (s : State) : (s.setPc w).i = s.i := rfl
@[simp] theorem State.setPc_pc (w : Word) (s : State) : (s.setPc w).pc = w := rfl
@[simp] theorem State.setPc_stack (w : Word) (s : State) : (s.setPc w).stack = s.stack := rfl
@[simp] theorem State.setPc_dt (w : Word) (s : State) : (s.setPc w).dt = s.dt := rfl
@[simp] theorem State.setPc_st (w : Word) (s : State) : (s.setPc w).st = s.st := rfl
@[simp] theorem State.setPc_mode (w : Word) (s : State) : (s.setPc w).mode = s.mode := rfl
@[simp] theorem State.setPc_stopReq (w : Word) (s : State) : (s.setPc w).stopReq = s.stopReq := rfl
@[simp] theorem State.setPc_cause (w : Word) (s : State) : (s.setPc w).cause = s.cause := rfl
@[simp] theorem State.setPc_info (w : Word) (s : State) : (s.setPc w).info = s.info := rfl
@[simp] theorem State.setPc_mem (w : Word) (s : State) : (s.setPc w).mem = s.mem := rfl
@[simp] theorem State.setPc_fb (w : Word) (s : State) : (s.setPc w).fb = s.fb := rfl
@[simp] theorem State.setPc_dirty (w : Word) (s : State) : (s.setPc w).dirty = s.dirty := rfl
@[simp] theorem State.setPc_draws (w : Word) (s : State) : (s.setPc w).draws = s.draws := rfl
@[simp] theorem State.setPc_inputs (w : Word) (s : State) : (s.setPc w).inputs = s.inputs := rfl
@[simp] theorem State.setPc_moments (w : Word) (s : State) : (s.setPc w).moments = s.moments := rfl
@[simp] theorem State.setPc_trace (w : Word) (s : State) : (s.setPc w).trace = s.trace := rfl
@[simp] theorem State.setPc_getV (w : Word) (s : State) (r : Reg) : (s.setPc w).getV r = s.getV r := rfl
@[simp] theorem State.setPc_byteAt (w : Word) (s : State) (a : Nat) : (s.setPc w).byteAt a = s.byteAt a := rfl
@[simp] theorem State.setPc_pixel (w : Word) (s : State) (px : Col) (py : Row) : (s.setPc w).pixel px py = s.pixel px py := rfl
@[simp] theorem State.setPc_base (w : Word) (s : State) : (s.setPc w).base = s.base := rfl
@[simp] theorem State.setPc_sp (w : Word) (s : State) : (s.setPc w).sp = s.sp := rfl

/-! ### setDt -/

@[simp] theorem State.setDt_v (b : Byte) (s : State) : (s.setDt b).v = s.v := rfl
@[simp] theorem State.setDt_i (b : Byte) (s : State) : (s.setDt b).i = s.i := rfl
@[simp] theorem State.setDt_pc (b : Byte) (s : State) : (s.setDt b).pc = s.pc := rfl
@[simp] theorem State.setDt_stack (b : Byte) (s : State) : (s.setDt b).stack = s.stack := rfl
@[simp] theorem State.setDt_dt (b : Byte) (s : State) : (s.setDt b).dt = b := rfl
@[simp] theorem State.setDt_st (b : Byte) (s : State) : (s.setDt b).st = s.st := rfl
@[simp] theorem State.setDt_mode (b : Byte) (s : State) : (s.setDt b).mode = s.mode := rfl
@[simp] theorem State.setDt_stopReq (b : Byte) (s : State) : (s.setDt b).stopReq = s.stopReq := rfl
@[simp] theorem State.setDt_cause (b : Byte) (s : State) : (s.setDt b).cause = s.cause := rfl
@[simp] theorem State.setDt_info (b : Byte) (s : State) : (s.setDt b).info = s.info := rfl
@[simp] theorem State.setDt_mem (b : Byte) (s : State) : (s.setDt b).mem = s.mem := rfl
@[simp] theorem State.setDt_fb (b : Byte) (s : State) : (s.setDt b).fb = s.fb := rfl
@[simp] theorem State.setDt_dirty (b : Byte) (s : State) : (s.setDt b).dirty = s.dirty := rfl
@[simp] theorem State.setDt_draws (b : Byte) (s : State) : (s.setDt b).draws = s.draws := rfl
@[simp] theorem State.setDt_inputs (b : Byte) (s : State) : (s.setDt b).inputs = s.inputs := rfl
@[simp] theorem State.setDt_moments (b : Byte) (s : State) : (s.setDt b).moments = s.moments := rfl
@[simp] theorem State.setDt_trace (b : Byte) (s : State) : (s.setDt b).trace = s.trace := rfl
@[simp] theorem State.setDt_getV (b : Byte) (s : State) (r : Reg) : (s.setDt b).getV r = s.getV r := rfl
@[simp] theorem State.setDt_byteAt (b : Byte) (s : State) (a : Nat) : (s.setDt b).byteAt a = s.byteAt a := rfl
@[simp] theorem State.setDt_pixel (b : Byte) (s : State) (px : Col) (py : Row) : (s.setDt b).pixel px py = s.pixel px py := rfl
@[simp] theorem State.setDt_base (b : Byte) (s : State) : (s.setDt b).base = s.base := rfl
@[simp] theorem State.setDt_sp (b : Byte) (s : State) : (s.setDt b).sp = s.sp := rfl

/-! ### setSt -/

@[simp] theorem State.setSt_v (b : Byte) (s : State) : (s.setSt b).v = s.v := rfl
@[simp] theorem State.setSt_i (b : Byte) (s : State) : (s.setSt b).i = s.i := rfl
@[simp] theorem State.setSt_pc (b : Byte) (s : State) : (s.setSt b).pc = s.pc := rfl
@[simp] theorem State.setSt_stack (b : Byte) (s : State) : (s.setSt b).stack = s.stack := rfl
@[simp] theorem State.setSt_dt (b : Byte) (s : State) : (s.setSt b).dt = s.dt := rfl
@[simp] theorem State.setSt_st (b : Byte) (s : State) : (s.setSt b).st = b := rfl
@[simp] theorem State.setSt_mode (b : Byte) (s : State) : (s.setSt b).mode = s.mode := rfl
@[simp] theorem State.setSt_stopReq (b : Byte) (s : State) : (s.setSt b).stopReq = s.stopReq := rfl
@[simp] theorem State.setSt_cause (b : Byte) (s : State) : (s.setSt b).cause = s.cause := rfl
@[simp] theorem State.setSt_info (b : Byte) (s : State) : (s.setSt b).info = s.info := rfl
@[simp] theorem State.setSt_mem (b : Byte) (s : State) : (s.setSt b).mem = s.mem := rfl
@[simp] theorem State.setSt_fb (b : Byte) (s : State) : (s.setSt b).fb = s.fb := rfl
@[simp] theorem State.setSt_dirty (b : Byte) (s : State) : (s.setSt b).dirty = s.dirty := rfl
@[simp] theorem State.setSt_draws (b : Byte) (s : State) : (s.setSt b).draws = s.draws := rfl
@[simp] theorem State.setSt_inputs (b : Byte) (s : State) : (s.setSt b).inputs = s.inputs := rfl
@[simp] theorem State.setSt_moments (b : Byte) (s : State) : (s.setSt b).moments = s.moments := rfl
@[simp] theorem State.setSt_trace (b : Byte) (s : State) : (s.setSt b).trace = s.trace := rfl
@[simp] theorem State.setSt_getV (b : Byte) (s : State) (r : Reg) : (s.setSt b).getV r = s.getV r := rfl
@[simp] theorem State.setSt_byteAt (b : Byte) (s : State) (a : Nat) : (s.setSt b).byteAt a = s.byteAt a := rfl
@[simp] theorem State.setSt_pixel (b : Byte) (s : State) (px : Col) (py : Row) : (s.setSt b).pixel px py = s.pixel px py := rfl
@[simp] theorem State.setSt_base (b : Byte) (s : State) : (s.setSt b).base = s.base := rfl
@[simp] theorem State.setSt_sp (b : Byte) (s : State) : (s.setSt b).sp = s.sp := rfl

/-! ### setMode -/

@[simp] theorem State.setMode_v (m : Mode) (s : State) : (s.setMode m).v = s.v := rfl
@[simp] theorem State.setMode_i (m : Mode) (s : State) : (s.setMode m).i = s.i := rfl
@[simp] theorem State.setMode_pc (m : Mode) (s : State) : (s.setMode m).pc = s.pc := rfl
@[simp] theorem State.setMode_stack (m : Mode) (s : State) : (s.setMode m).stack = s.stack := rfl
@[simp] theorem State.setMode_dt (m : Mode) (s : State) : (s.setMode m).dt = s.dt := rfl
@[simp] theorem State.setMode_st (m : Mode) (s : State) : (s.setMode m).st = s.st := rfl
@[simp] theorem State.setMode_mode (m : Mode) (s : State) : (s.setMode m).mode = m := rfl
@[simp] theorem State.setMode_stopReq (m : Mode) (s : State) : (s.setMode m).stopReq = s.stopReq := rfl
@[simp] theorem State.setMode_cause (m : Mode) (s : State) : (s.setMode m).cause = s.cause := rfl
@[simp] theorem State.setMode_info (m : Mode) (s : State) : (s.setMode m).info = s.info := rfl
@[simp] theorem State.setMode_mem (m : Mode) (s : State) : (s.setMode m).mem = s.mem := rfl
@[simp] theorem State.setMode_fb (m : Mode) (s : State) : (s.setMode m).fb = s.fb := rfl
@[simp] theorem State.setMode_dirty (m : Mode) (s : State) : (s.setMode m).dirty = s.dirty := rfl
@[simp] theorem State.setMode_draws (m : Mode) (s : State) : (s.setMode m).draws = s.draws := rfl
@[simp] theorem State.setMode_inputs (m : Mode) (s : State) : (s.setMode m).inputs = s.inputs := rfl
@[simp] theorem State.setMode_moments (m : Mode) (s : State) : (s.setMode m).moments = s.moments := rfl
@[simp] theorem State.setMode_trace (m : Mode) (s : State) : (s.setMode m).trace = s.trace := rfl
@[simp] theorem State.setMode_getV (m : Mode) (s : State) (r : Reg) : (s.setMode m).getV r = s.getV r := rfl
@[simp] theorem State.setMode_byteAt (m : Mode) (s : State) (a : Nat) : (s.setMode m).byteAt a = s.byteAt a := rfl
@[simp] theorem State.setMode_pixel (m : Mode) (s : State) (px : Col) (py : Row) : (s.setMode m).pixel px py = s.pixel px py := rfl
@[simp] theorem State.setMode_base (m : Mode) (s : State) : (s.setMode m).base = s.base := rfl
@[simp] theorem State.setMode_sp (m : Mode) (s : State) : (s.setMode m).sp = s.sp := rfl

/-! ### advance -/

@[simp] theorem State.advance_v (s : State) : (s.advance).v = s.v := rfl
@[simp] theorem State.advance_i (s : State) : (s.advance).i = s.i := rfl
@[simp] theorem State.advance_pc (s : State) : (s.advance).pc = s.pc + 2 := rfl
@[simp] theorem State.advance_stack (s : State) : (s.advance).stack = s.stack := rfl
@[simp] theorem State.advance_dt (s : State) : (s.advance).dt = s.dt := rfl
@[simp] theorem State.advance_st (s : State) : (s.advance).st = s.st := rfl
@[simp] theorem State.advance_mode (s : State) : (s.advance).mode = s.mode := rfl
@[simp] theorem State.advance_stopReq (s : State) : (s.advance).stopReq = s.stopReq := rfl
@[simp] theorem State.advance_cause (s : State) : (s.advance).cause = s.cause := rfl
@[simp] theorem State.advance_info (s : State) : (s.advance).info = s.info := rfl
@[simp] theorem State.advance_mem (s : State) : (s.advance).mem = s.mem := rfl
@[simp] theorem State.advance_fb (s : State) : (s.advance).fb = s.fb := rfl
@[simp] theorem State.advance_dirty (s : State) : (s.advance).dirty = s.dirty := rfl
@[simp] theorem State.advance_draws (s : State) : (s.advance).draws = s.draws := rfl
@[simp] theorem State.advance_inputs (s : State) : (s.advance).inputs = s.inputs := rfl
@[simp] theorem State.advance_moments (s : State) : (s.advance).moments = s.moments := rfl
@[simp] theorem State.advance_trace (s : State) : (s.advance).trace = s.trace := rfl
@[simp] theorem State.advance_getV (s : State) (r : Reg) : (s.advance).getV r = s.getV r := rfl
@[simp] theorem State.advance_byteAt (s : State) (a : Nat) : (s.advance).byteAt a = s.byteAt a := rfl
@[simp] theorem State.advance_pixel (s : State) (px : Col) (py : Row) : (s.advance).pixel px py = s.pixel px py := rfl
@[simp] theorem State.advance_base (s : State) : (s.advance).base = s.base := rfl
@[simp] theorem State.advance_sp (s : State) : (s.advance).sp = s.sp := rfl

/-! ### dispClear -/

@[simp] theorem State.dispClear_v (s : State) : (s.dispClear).v = s.v := rfl
@[simp] theorem State.dispClear_i (s : State) : (s.dispClear).i = s.i := rfl
@[simp] theorem State.dispClear_pc (s : State) : (s.dispClear).pc = s.pc := rfl
@[simp] theorem State.dispClear_stack (s : State) : (s.dispClear).stack = s.stack := rfl
@[simp] theorem State.dispClear_dt (s : State) : (s.dispClear).dt = s.dt := rfl
@[simp] theorem State.dispClear_st (s : State) : (s.dispClear).st = s.st := rfl
@[simp] theorem State.dispClear_mode (s : State) : (s.dispClear).mode = s.mode := rfl
@[simp] theorem State.dispClear_stopReq (s : State) : (s.dispClear).stopReq = s.stopReq := rfl
@[simp] theorem State.dispClear_cause (s : State) : (s.dispClear).cause = s.cause := rfl
@[simp] theorem State.dispClear_info (s : State) : (s.dispClear).info = s.info := rfl
@[simp] theorem State.dispClear_mem (s : State) : (s.dispClear).mem = s.mem := rfl
@[simp] theorem State.dispClear_fb (s : State) : (s.dispClear).fb = Display.clear := rfl
@[simp] theorem State.dispClear_dirty (s : State) : (s.dispClear).dirty = (s.dirty || Config.clearMarksDirty s.draws) := rfl
@[simp] theorem State.dispClear_draws (s : State) : (s.dispClear).draws = s.draws + 1 := rfl
@[simp] theorem State.dispClear_inputs (s : State) : (s.dispClear).inputs = s.inputs := rfl
@[simp] theorem State.dispClear_moments (s : State) : (s.dispClear).moments = s.moments := rfl
@[simp] theorem State.dispClear_trace (s : State) : (s.dispClear).trace = s.trace ++ [.dispClear] := rfl
@[simp] theorem State.dispClear_getV (s : State) (r : Reg) : (s.dispClear).getV r = s.getV r := rfl
@[simp] theorem State.dispClear_byteAt (s : State) (a : Nat) : (s.dispClear).byteAt a = s.byteAt a := rfl
@[simp] theorem State.dispClear_base (s : State) : (s.dispClear).base = s.base := rfl
@[simp] theorem State.dispClear_sp (s : State) : (s.dispClear).sp = s.sp := rfl

/-! ### dispGet -/

@[simp] theorem State.dispGet_v (px : Col) (py : Row) (s : State) : (s.dispGet px py).v = s.v := rfl
@[simp] theorem State.dispGet_i (px : Col) (py : Row) (s : State) : (s.dispGet px py).i = s.i := rfl
@[simp] theorem State.dispGet_pc (px : Col) (py : Row) (s : State) : (s.dispGet px py).pc = s.pc := rfl
@[simp] theorem State.dispGet_stack (px : Col) (py : Row) (s : State) : (s.dispGet px py).stack = s.stack := rfl
@[simp] theorem State.dispGet_dt (px : Col) (py : Row) (s : State) : (s.dispGet px py).dt = s.dt := rfl
@[simp] theorem State.dispGet_st (px : Col) (py : Row) (s : State) : (s.dispGet px py).st = s.st := rfl
@[simp] theorem State.dispGet_mode (px : Col) (py : Row) (s : State) : (s.dispGet px py).mode = s.mode := rfl
@[simp] theorem State.dispGet_stopReq (px : Col) (py : Row) (s : State) : (s.dispGet px py).stopReq = s.stopReq := rfl
@[simp] theorem State.dispGet_cause (px : Col) (py : Row) (s : State) : (s.dispGet px py).cause = s.cause := rfl
@[simp] theorem State.dispGet_info (px : Col) (py : Row) (s : State) : (s.dispGet px py).info = s.info := rfl
@[simp] theorem State.dispGet_mem (px : Col) (py : Row) (s : State) : (s.dispGet px py).mem = s.mem := rfl
@[simp] theorem State.dispGet_fb (px : Col) (py : Row) (s : State) : (s.dispGet px py).fb = s.fb := rfl
@[simp] theorem State.dispGet_dirty (px : Col) (py : Row) (s : State) : (s.dispGet px py).dirty = s.dirty := rfl
@[simp] theorem State.dispGet_draws (px : Col) (py : Row) (s : State) : (s.dispGet px py).draws = s.draws := rfl
@[simp] theorem State.dispGet_inputs (px : Col) (py : Row) (s : State) : (s.dispGet px py).inputs = s.inputs := rfl
@[simp] theorem State.dispGet_moments (px : Col) (py : Row) (s : State) : (s.dispGet px py).moments = s.moments := rfl
@[simp] theorem State.dispGet_trace (px : Col) (py : Row) (s : State) : (s.dispGet px py).trace = s.trace ++ [.dispGet px py (s.pixel px py)] := rfl
@[simp] theorem State.dispGet_getV (px : Col) (py : Row) (s : State) (r : Reg) : (s.dispGet px py).getV r = s.getV r := rfl
@[simp] theorem State.dispGet_byteAt (px : Col) (py : Row) (s : State) (a : Nat) : (s.dispGet px py).byteAt a = s.byteAt a := rfl
@[simp] theorem State.dispGet_pixel (px : Col) (py : Row) (s : State) (qx : Col) (qy : Row) : (s.dispGet px py).pixel qx qy = s.pixel qx qy := rfl
@[simp] theorem State.dispGet_base (px : Col) (py : Row) (s : State) : (s.dispGet px py).base = s.base := rfl
@[simp] theorem State.dispGet_sp (px : Col) (py : Row) (s : State) : (s.dispGet px py).sp = s.sp := rfl

/-! ### dispSet -/

@[simp] theorem State.dispSet_v (px : Col) (py : Row) (b : Bool) (s : State) : (s.dispSet px py b).v = s.v := rfl
@[simp] theorem State.dispSet_i (px : Col) (py : Row) (b : Bool) (s : State) : (s.dispSet px py b).i = s.i := rfl
@[simp] theorem State.dispSet_pc (px : Col) (py : Row) (b : Bool) (s : State) : (s.dispSet px py b).pc = s.pc := rfl
@[simp] theorem State.dispSet_stack (px : Col) (py : Row) (b : Bool) (s : State) : (s.dispSet px py b).stack = s.stack := rfl
@[simp] theorem State.dispSet_dt (px : Col) (py : Row) (b : Bool) (s : State) : (s.dispSet px py b).dt = s.dt := rfl
@[simp] theorem State.dispSet_st (px : Col) (py : Row) (b : Bool) (s : State) : (s.dispSet px py b).st = s.st := rfl
@[simp] theorem State.dispSet_mode (px : Col) (py : Row) (b : Bool) (s : State) : (s.dispSet px py b).mode = s.mode := rfl
@[simp] theorem State.dispSet_stopReq (px : Col) (py : Row) (b : Bool) (s : State) : (s.dispSet px py b).stopReq = s.stopReq := rfl
@[simp] theorem State.dispSet_cause (px : Col) (py : Row) (b : Bool) (s : State) : (s.dispSet px py b).cause = s.cause := rfl
@[simp] theorem State.dispSet_info (px : Col) (py : Row) (b : Bool) (s : State) : (s.dispSet px py b).info = s.info := rfl
@[simp] theorem State.dispSet_mem (px : Col) (py : Row) (b : Bool) (s : State) : (s.dispSet px py b).mem = s.mem := rfl
@[simp] theorem State.dispSet_fb (px : Col) (py : Row) (b : Bool) (s : State) : (s.dispSet px py b).fb = Display.set s.fb px py b := rfl
@[simp] theorem State.dispSet_dirty (px : Col) (py : Row) (b : Bool) (s : State) : (s.dispSet px py b).dirty = s.dirty := rfl
@[simp] theorem State.dispSet_draws (px : Col) (py : Row) (b : Bool) (s : State) : (s.dispSet px py b).draws = s.draws := rfl
@[simp] theorem State.dispSet_inputs (px : Col) (py : Row) (b : Bool) (s : State) : (s.dispSet px py b).inputs = s.inputs := rfl
@[simp] theorem State.dispSet_moments (px : Col) (py : Row) (b : Bool) (s : State) : (s.dispSet px py b).moments = s.moments := rfl
@[simp] theorem State.dispSet_trace (px : Col) (py : Row) (b : Bool) (s : State) : (s.dispSet px py b).trace = s.trace ++ [.dispSet px py b] := rfl
@[simp] theorem State.dispSet_getV (px : Col) (py : Row) (b : Bool) (s : State) (r : Reg) : (s.dispSet px py b).getV r = s.getV r := rfl
@[simp] theorem State.dispSet_byteAt (px : Col) (py : Row) (b : Bool) (s : State) (a : Nat) : (s.dispSet px py b).byteAt a = s.byteAt a := rfl
@[simp] theorem State.dispSet_base (px : Col) (py : Row) (b : Bool) (s : State) : (s.dispSet px py b).base = s.base := rfl
@[simp] theorem State.dispSet_sp (px : Col) (py : Row) (b : Bool) (s : State) : (s.dispSet px py b).sp = s.sp := rfl

/-! ### dispMarkDirty -/

@[simp] theorem State.dispMarkDirty_v (s : State) : (s.dispMarkDirty).v = s.v := rfl
@[simp] theorem State.dispMarkDirty_i (s : State) : (s.dispMarkDirty).i = s.i := rfl
@[simp] theorem State.dispMarkDirty_pc (s : State) : (s.dispMarkDirty).pc = s.pc := rfl
@[simp] theorem State.dispMarkDirty_stack (s : State) : (s.dispMarkDirty).stack = s.stack := rfl
@[simp] theorem State.dispMarkDirty_dt (s : State) : (s.dispMarkDirty).dt = s.dt := rfl
@[simp] theorem State.dispMarkDirty_st (s : State) : (s.dispMarkDirty).st = s.st := rfl
@[simp] theorem State.dispMarkDirty_mode (s : State) : (s.dispMarkDirty).mode = s.mode := rfl
@[simp] theorem State.dispMarkDirty_stopReq (s : State) : (s.dispMarkDirty).stopReq = s.stopReq := rfl
@[simp] theorem State.dispMarkDirty_cause (s : State) : (s.dispMarkDirty).cause = s.cause := rfl
@[simp] theorem State.dispMarkDirty_info (s : State) : (s.dispMarkDirty).info = s.info := rfl
@[simp] theorem State.dispMarkDirty_mem (s : State) : (s.dispMarkDirty).mem = s.mem := rfl
@[simp] theorem State.dispMarkDirty_fb (s : State) : (s.dispMarkDirty).fb = s.fb := rfl
@[simp] theorem State.dispMarkDirty_dirty (s : State) : (s.dispMarkDirty).dirty = true := rfl
@[simp] theorem State.dispMarkDirty_draws (s : State) : (s.dispMarkDirty).draws = s.draws := rfl
@[simp] theorem State.dispMarkDirty_inputs (s : State) : (s.dispMarkDirty).inputs = s.inputs := rfl
@[simp] theorem State.dispMarkDirty_moments (s : State) : (s.dispMarkDirty).moments = s.moments := rfl
@[simp] theorem State.dispMarkDirty_trace (s : State) : (s.dispMarkDirty).trace = s.trace ++ [.dispMarkDirty] := rfl
@[simp] theorem State.dispMarkDirty_getV (s : State) (r : Reg) : (s.dispMarkDirty).getV r = s.getV r := rfl
@[simp] theorem State.dispMarkDirty_byteAt (s : State) (a : Nat) : (s.dispMarkDirty).byteAt a = s.byteAt a := rfl
@[simp] theorem State.dispMarkDirty_pixel (s : State) (px : Col) (py : Row) : (s.dispMarkDirty).pixel px py = s.pixel px py := rfl
@[simp] theorem State.dispMarkDirty_base (s : State) : (s.dispMarkDirty).base = s.base := rfl
@[simp] theorem State.dispMarkDirty_sp (s : State) : (s.dispMarkDirty).sp = s.sp := rfl

/-! ### sync -/

@[simp] theorem State.sync_v (s : State) : (s.sync).v = s.v := rfl
@[simp] theorem State.sync_i (s : State) : (s.sync).i = s.i := rfl
@[simp] theorem State.sync_pc (s : State) : (s.sync).pc = s.pc := rfl
@[simp] theorem State.sync_stack (s : State) : (s.sync).stack = s.stack := rfl
@[simp] theorem State.sync_dt (s : State) : (s.sync).dt = s.dt := rfl
@[simp] theorem State.sync_st (s : State) : (s.sync).st = s.st := rfl
@[simp] theorem State.sync_mode (s : State) : (s.sync).mode = s.mode := rfl
@[simp] theorem State.sync_stopReq (s : State) : (s.sync).stopReq = s.stopReq := rfl
@[simp] theorem State.sync_cause (s : State) : (s.sync).cause = s.cause := rfl
@[simp] theorem State.sync_info (s : State) : (s.sync).info = s.info := rfl
@[simp] theorem State.sync_mem (s : State) : (s.sync).mem = s.mem := rfl
@[simp] theorem State.sync_fb (s : State) : (s.sync).fb = s.fb := rfl
@[simp] theorem State.sync_dirty (s : State) : (s.sync).dirty = (s.dirty && Config.dirtyOutlivesSync s.draws) := rfl
@[simp] theorem State.sync_draws (s : State) : (s.sync).draws = s.draws + 1 := rfl
@[simp] theorem State.sync_inputs (s : State) : (s.sync).inputs = s.inputs := rfl
@[simp] theorem State.sync_moments (s : State) : (s.sync).moments = s.moments := rfl
@[simp] theorem State.sync_trace (s : State) : (s.sync).trace = s.trace ++ [.sync] := rfl
@[simp] theorem State.sync_getV (s : State) (r : Reg) : (s.sync).getV r = s.getV r := rfl
@[simp] theorem State.sync_byteAt (s : State) (a : Nat) : (s.sync).byteAt a = s.byteAt a := rfl
@[simp] theorem State.sync_pixel (s : State) (px : Col) (py : Row) : (s.sync).pixel px py = s.pixel px py := rfl
@[simp] theorem State.sync_base (s : State) : (s.sync).base = s.base := rfl
@[simp] theorem State.sync_sp (s : State) : (s.sync).sp = s.sp := rfl

/-! ### keyQuery -/

@[simp] theorem State.keyQuery_v (code : Byte) (s : State) : (s.keyQuery code).v = s.v := rfl
@[simp] theorem State.keyQuery_i (code : Byte) (s : State) : (s.keyQuery code).i = s.i := rfl
@[simp] theorem State.keyQuery_pc (code : Byte) (s : State) : (s.keyQuery code).pc = s.pc := rfl
@[simp] theorem State.keyQuery_stack (code : Byte) (s : State) : (s.keyQuery code).stack = s.stack := rfl
@[simp] theorem State.keyQuery_dt (code : Byte) (s : State) : (s.keyQuery code).dt = s.dt := rfl
@[simp] theorem State.keyQuery_st (code : Byte) (s : State) : (s.keyQuery code).st = s.st := rfl
@[simp] theorem State.keyQuery_mode (code : Byte) (s : State) : (s.keyQuery code).mode = s.mode := rfl
@[simp] theorem State.keyQuery_stopReq (code : Byte) (s : State) : (s.keyQuery code).stopReq = s.stopReq := rfl
@[simp] theorem State.keyQuery_cause (code : Byte) (s : State) : (s.keyQuery code).cause = s.cause := rfl
@[simp] theorem State.keyQuery_info (code : Byte) (s : State) : (s.keyQuery code).info = s.info := rfl
@[simp] theorem State.keyQuery_mem (code : Byte) (s : State) : (s.keyQuery code).mem = s.mem := rfl
@[simp] theorem State.keyQuery_fb (code : Byte) (s : State) : (s.keyQuery code).fb = s.fb := rfl
@[simp] theorem State.keyQuery_dirty (code : Byte) (s : State) : (s.keyQuery code).dirty = s.dirty := rfl
@[simp] theorem State.keyQuery_draws (code : Byte) (s : State) : (s.keyQuery code).draws = s.draws + 1 := rfl
@[simp] theorem State.keyQuery_inputs (code : Byte) (s : State) : (s.keyQuery code).inputs = s.inputs := rfl
@[simp] theorem State.keyQuery_moments (code : Byte) (s : State) : (s.keyQuery code).moments = s.moments := rfl
@[simp] theorem State.keyQuery_trace (code : Byte) (s : State) : (s.keyQuery code).trace = s.trace ++ [.isKeyDown code (s.keyAnswer code)] := rfl
@[simp] theorem State.keyQuery_getV (code : Byte) (s : State) (r : Reg) : (s.keyQuery code).getV r = s.getV r := rfl
@[simp] theorem State.keyQuery_byteAt (code : Byte) (s : State) (a : Nat) : (s.keyQuery code).byteAt a = s.byteAt a := rfl
@[simp] theorem State.keyQuery_pixel (code : Byte) (s : State) (px : Col) (py : Row) : (s.keyQuery code).pixel px py = s.pixel px py := rfl
@[simp] theorem State.keyQuery_base (code : Byte) (s : State) : (s.keyQuery code).base = s.base := rfl
@[simp] theorem State.keyQuery_sp (code : Byte) (s : State) : (s.keyQuery code).sp = s.sp := rfl

/-! ### randDraw -/

@[simp] theorem State.randDraw_v (s : State) : (s.randDraw).v = s.v := rfl
@[simp] theorem State.randDraw_i (s : State) : (s.randDraw).i = s.i := rfl
@[simp] theorem State.randDraw_pc (s : State) : (s.randDraw).pc = s.pc := rfl
@[simp] theorem State.randDraw_stack (s : State) : (s.randDraw).stack = s.stack := rfl
@[simp] theorem State.randDraw_dt (s : State) : (s.randDraw).dt = s.dt := rfl
@[simp] theorem State.randDraw_st (s : State) : (s.randDraw).st = s.st := rfl
@[simp] theorem State.randDraw_mode (s : State) : (s.randDraw).mode = s.mode := rfl
@[simp] theorem State.randDraw_stopReq (s : State) : (s.randDraw).stopReq = s.stopReq := rfl
@[simp] theorem State.randDraw_cause (s : State) : (s.randDraw).cause = s.cause := rfl
@[simp] theorem State.randDraw_info (s : State) : (s.randDraw).info = s.info := rfl
@[simp] theorem State.randDraw_mem (s : State) : (s.randDraw).mem = s.mem := rfl
@[simp] theorem State.randDraw_fb (s : State) : (s.randDraw).fb = s.fb := rfl
@[simp] theorem State.randDraw_dirty (s : State) : (s.randDraw).dirty = s.dirty := rfl
@[simp] theorem State.randDraw_draws (s : State) : (s.randDraw).draws = s.draws + 1 := rfl
@[simp] theorem State.randDraw_inputs (s : State) : (s.randDraw).inputs = s.inputs := rfl
@[simp] theorem State.randDraw_moments (s : State) : (s.randDraw).moments = s.moments := rfl
@[simp] theorem State.randDraw_trace (s : State) : (s.randDraw).trace = s.trace ++ [.rand s.randAnswer] := rfl
@[simp] theorem State.randDraw_getV (s : State) (r : Reg) : (s.randDraw).getV r = s.getV r := rfl
@[simp] theorem State.randDraw_byteAt (s : State) (a : Nat) : (s.randDraw).byteAt a = s.byteAt a := rfl
@[simp] theorem State.randDraw_pixel (s : State) (px : Col) (py : Row) : (s.randDraw).pixel px py = s.pixel px py := rfl
@[simp] theorem State.randDraw_base (s : State) : (s.randDraw).base = s.base := rfl
@[simp] theorem State.randDraw_sp (s : State) : (s.randDraw).sp = s.sp := rfl

/-! ### audioPlay -/

@[simp] theorem State.audioPlay_v (s : State) : (s.audioPlay).v = s.v := rfl
@[simp] theorem State.audioPlay_i (s : State) : (s.audioPlay).i = s.i := rfl
@[simp] theorem State.audioPlay_pc (s : State) : (s.audioPlay).pc = s.pc := rfl
@[simp] theorem State.audioPlay_stack (s : State) : (s.audioPlay).stack = s.stack := rfl
@[simp] theorem State.audioPlay_dt (s : State) : (s.audioPlay).dt = s.dt := rfl
@[simp] theorem State.audioPlay_st (s : State) : (s.audioPlay).st = s.st := rfl
@[simp] theorem State.audioPlay_mode (s : State) : (s.audioPlay).mode = s.mode := rfl
@[simp] theorem State.audioPlay_stopReq (s : State) : (s.audioPlay).stopReq = s.stopReq := rfl
@[simp] theorem State.audioPlay_cause (s : State) : (s.audioPlay).cause = s.cause := rfl
@[simp] theorem State.audioPlay_info (s : State) : (s.audioPlay).info = s.info := rfl
@[simp] theorem State.audioPlay_mem (s : State) : (s.audioPlay).mem = s.mem := rfl
@[simp] theorem State.audioPlay_fb (s : State) : (s.audioPlay).fb = s.fb := rfl
@[simp] theorem State.audioPlay_dirty (s : State) : (s.audioPlay).dirty = s.dirty := rfl
@[simp] theorem State.audioPlay_draws (s : State) : (s.audioPlay).draws = s.draws := rfl
@[simp] theorem State.audioPlay_inputs (s : State) : (s.audioPlay).inputs = s.inputs := rfl
@[simp] theorem State.audioPlay_moments (s : State) : (s.audioPlay).moments = s.moments := rfl
@[simp] theorem State.audioPlay_trace (s : State) : (s.audioPlay).trace = s.trace ++ [.play] := rfl
@[simp] theorem State.audioPlay_getV (s : State) (r : Reg) : (s.audioPlay).getV r = s.getV r := rfl
@[simp] theorem State.audioPlay_byteAt (s : State) (a : Nat) : (s.audioPlay).byteAt a = s.byteAt a := rfl
@[simp] theorem State.audioPlay_pixel (s : State) (px : Col) (py : Row) : (s.audioPlay).pixel px py = s.pixel px py := rfl
@[simp] theorem State.audioPlay_base (s : State) : (s.audioPlay).base = s.base := rfl
@[simp] theorem State.audioPlay_sp (s : State) : (s.audioPlay).sp = s.sp := rfl

/-! ### enterFault -/

@[simp] theorem State.enterFault_v (f : Fault) (s : State) : (s.enterFault f).v = s.v := rfl
@[simp] theorem State.enterFault_i (f : Fault) (s : State) : (s.enterFault f).i = s.i := rfl
@[simp] theorem State.enterFault_pc (f : Fault) (s : State) : (s.enterFault f).pc = s.pc := rfl
@[simp] theorem State.enterFault_stack (f : Fault) (s : State) : (s.enterFault f).stack = s.stack := rfl
@[simp] theorem State.enterFault_dt (f : Fault) (s : State) : (s.enterFault f).dt = s.dt := rfl
@[simp] theorem State.enterFault_st (f : Fault) (s : State) : (s.enterFault f).st = s.st := rfl
@[simp] theorem State.enterFault_mode (f : Fault) (s : State) : (s.enterFault f).mode = .faulted := rfl
@[simp] theorem State.enterFault_stopReq (f : Fault) (s : State) : (s.enterFault f).stopReq = s.stopReq := rfl
@[simp] theorem State.enterFault_cause (f : Fault) (s : State) : (s.enterFault f).cause = f.code := rfl
@[simp] theorem State.enterFault_info (f : Fault) (s : State) : (s.enterFault f).info = f.detail := rfl
@[simp] theorem State.enterFault_mem (f : Fault) (s : State) : (s.enterFault f).mem = s.mem := rfl
@[simp] theorem State.enterFault_fb (f : Fault) (s : State) : (s.enterFault f).fb = s.fb := rfl
@[simp] theorem State.enterFault_dirty (f : Fault) (s : State) : (s.enterFault f).dirty = s.dirty := rfl
@[simp] theorem State.enterFault_draws (f : Fault) (s : State) : (s.enterFault f).draws = s.draws := rfl
@[simp] theorem State.enterFault_inputs (f : Fault) (s : State) : (s.enterFault f).inputs = s.inputs := rfl
@[simp] theorem State.enterFault_moments (f : Fault) (s : State) : (s.enterFault f).moments = s.moments := rfl
@[simp] theorem State.enterFault_trace (f : Fault) (s : State) : (s.enterFault f).trace = s.trace := rfl
@[simp] theorem State.enterFault_getV (f : Fault) (s : State) (r : Reg) : (s.enterFault f).getV r = s.getV r := rfl
@[simp] theorem State.enterFault_byteAt (f : Fault) (s : State) (a : Nat) : (s.enterFault f).byteAt a = s.byteAt a := rfl
@[simp] theorem State.enterFault_pixel (f : Fault) (s : State) (px : Col) (py : Row) : (s.enterFault f).pixel px py = s.pixel px py := rfl
@[simp] theorem State.enterFault_base (f : Fault) (s : State) : (s.enterFault f).base = s.base := rfl
@[simp] theorem State.enterFault_sp (f : Fault) (s : State) : (s.enterFault f).sp = s.sp := rfl

/-! ### blockReset -/

@[simp] theorem State.blockReset_v (s : State) : (s.blockReset).v = Vector.replicate 16 0 := rfl
@[simp] theorem State.blockReset_i (s : State) : (s.blockReset).i = 0 := rfl
@[simp] theorem State.blockReset_pc (s : State) : (s.blockReset).pc = Config.entry := rfl
@[simp] theorem State.blockReset_stack (s : State) : (s.blockReset).stack = [] := rfl
@[simp] theorem State.blockReset_dt (s : State) : (s.blockReset).dt = 0 := rfl
@[simp] theorem State.blockReset_st (s : State) : (s.blockReset).st = 0 := rfl
@[simp] theorem State.blockReset_mode (s : State) : (s.blockReset).mode = .idle := rfl
@[simp] theorem State.blockReset_stopReq (s : State) : (s.blockReset).stopReq = false := rfl
@[simp] theorem State.blockReset_cause (s : State) : (s.blockReset).cause = 0 := rfl
@[simp] theorem State.blockReset_info (s : State) : (s.blockReset).info = 0 := rfl
@[simp] theorem State.blockReset_mem (s : State) : (s.blockReset).mem = s.mem := rfl
@[simp] theorem State.blockReset_fb (s : State) : (s.blockReset).fb = s.fb := rfl
@[simp] theorem State.blockReset_dirty (s : State) : (s.blockReset).dirty = s.dirty := rfl
@[simp] theorem State.blockReset_draws (s : State) : (s.blockReset).draws = s.draws := rfl
@[simp] theorem State.blockReset_inputs (s : State) : (s.blockReset).inputs = s.inputs := rfl
@[simp] theorem State.blockReset_moments (s : State) : (s.blockReset).moments = s.moments := rfl
@[simp] theorem State.blockReset_trace (s : State) : (s.blockReset).trace = s.trace ++ [.seed] := rfl
@[simp] theorem State.blockReset_byteAt (s : State) (a : Nat) : (s.blockReset).byteAt a = s.byteAt a := rfl
@[simp] theorem State.blockReset_pixel (s : State) (px : Col) (py : Row) : (s.blockReset).pixel px py = s.pixel px py := rfl

/-! ### dropInput -/

@[simp] theorem State.dropInput_v (s : State) : (s.dropInput).v = s.v := rfl
@[simp] theorem State.dropInput_i (s : State) : (s.dropInput).i = s.i := rfl
@[simp] theorem State.dropInput_pc (s : State) : (s.dropInput).pc = s.pc := rfl
@[simp] theorem State.dropInput_stack (s : State) : (s.dropInput).stack = s.stack := rfl
@[simp] theorem State.dropInput_dt (s : State) : (s.dropInput).dt = s.dt := rfl
@[simp] theorem State.dropInput_st (s : State) : (s.dropInput).st = s.st := rfl
@[simp] theorem State.dropInput_mode (s : State) : (s.dropInput).mode = s.mode := rfl
@[simp] theorem State.dropInput_stopReq (s : State) : (s.dropInput).stopReq = s.stopReq := rfl
@[simp] theorem State.dropInput_cause (s : State) : (s.dropInput).cause = s.cause := rfl
@[simp] theorem State.dropInput_info (s : State) : (s.dropInput).info = s.info := rfl
@[simp] theorem State.dropInput_mem (s : State) : (s.dropInput).mem = s.mem := rfl
@[simp] theorem State.dropInput_fb (s : State) : (s.dropInput).fb = s.fb := rfl
@[simp] theorem State.dropInput_dirty (s : State) : (s.dropInput).dirty = s.dirty := rfl
@[simp] theorem State.dropInput_draws (s : State) : (s.dropInput).draws = s.draws := rfl
@[simp] theorem State.dropInput_inputs (s : State) : (s.dropInput).inputs = s.inputs.tail := rfl
@[simp] theorem State.dropInput_moments (s : State) : (s.dropInput).moments = (s.moments + if s.inputs.isEmpty then 1 else 0) := rfl
@[simp] theorem State.dropInput_trace (s : State) : (s.dropInput).trace = s.trace := rfl
@[simp] theorem State.dropInput_getV (s : State) (r : Reg) : (s.dropInput).getV r = s.getV r := rfl
@[simp] theorem State.dropInput_byteAt (s : State) (a : Nat) : (s.dropInput).byteAt a = s.byteAt a := rfl
@[simp] theorem State.dropInput_pixel (s : State) (px : Col) (py : Row) : (s.dropInput).pixel px py = s.pixel px py := rfl
@[simp] theorem State.dropInput_base (s : State) : (s.dropInput).base = s.base := rfl
@[simp] theorem State.dropInput_sp (s : State) : (s.dropInput).sp = s.sp := rfl

/-! ### withOutside -/

@[simp] theorem State.withOutside_v (o : Outside) (s : State) : (s.withOutside o).v = s.v := rfl
@[simp] theorem State.withOutside_i (o : Outside) (s : State) : (s.withOutside o).i = s.i := rfl
@[simp] theorem State.withOutside_pc (o : Outside) (s : State) : (s.withOutside o).pc = s.pc := rfl
@[simp] theorem State.withOutside_stack (o : Outside) (s : State) : (s.withOutside o).stack = s.stack := rfl
@[simp] theorem State.withOutside_dt (o : Outside) (s : State) : (s.withOutside o).dt = s.dt := rfl
@[simp] theorem State.withOutside_st (o : Outside) (s : State) : (s.withOutside o).st = s.st := rfl
@[simp] theorem State.withOutside_mode (o : Outside) (s : State) : (s.withOutside o).mode = s.mode := rfl
@[simp] theorem State.withOutside_stopReq (o : Outside) (s : State) : (s.withOutside o).stopReq = s.stopReq := rfl
@[simp] theorem State.withOutside_cause (o : Outside) (s : State) : (s.withOutside o).cause = s.cause := rfl
@[simp] theorem State.withOutside_info (o : Outside) (s : State) : (s.withOutside o).info = s.info := rfl
@[simp] theorem State.withOutside_mem (o : Outside) (s : State) : (s.withOutside o).mem = o.mem := rfl
@[simp] theorem State.withOutside_fb (o : Outside) (s : State) : (s.withOutside o).fb = o.fb := rfl
@[simp] theorem State.withOutside_dirty (o : Outside) (s : State) : (s.withOutside o).dirty = o.dirty := rfl
@[simp] theorem State.withOutside_draws (o : Outside) (s : State) : (s.withOutside o).draws = o.draws := rfl
@[simp] theorem State.withOutside_inputs (o : Outside) (s : State) : (s.withOutside o).inputs = s.inputs := rfl
@[simp] theorem State.withOutside_moments (o : Outside) (s : State) : (s.withOutside o).moments = s.moments := rfl
@[simp] theorem State.withOutside_trace (o : Outside) (s : State) : (s.withOutside o).trace = s.trace := rfl
@[simp] theorem State.withOutside_getV (o : Outside) (s : State) (r : Reg) : (s.withOutside o).getV r = s.getV r := rfl
@[simp] theorem State.withOutside_base (o : Outside) (s : State) : (s.withOutside o).base = s.base := rfl
@[simp] theorem State.withOutside_sp (o : Outside) (s : State) : (s.withOutside o).sp = s.sp := rfl

/-! ### Registers and pixels, read after a write -/

/-- A register read after a write of a register (R20). -/
@[simp] theorem State.getV_setV (r k : Reg) (b : Byte) (s : State) :
    (s.setV r b).getV k = if k = r then b else s.getV k := by
  simp only [State.getV, State.setV, Fin.getElem_fin, Vector.getElem_set, Fin.ext_iff, eq_comm]

/-- A pixel read after a pixel is written (R123). -/
theorem Display.getElem_set (fb : Display) (px qx : Col) (py qy : Row) (b : Bool) :
    (Display.set fb px py b)[qx][qy] = if qx = px ∧ qy = py then b else fb[qx][qy] := by
  simp only [Display.set, Fin.getElem_fin, Vector.getElem_set, Fin.ext_iff]
  grind

/-- A pixel read after the display is cleared (R122). -/
@[simp] theorem Display.getElem_clear (qx : Col) (qy : Row) : Display.clear[qx][qy] = false := by
  simp [Display.clear]

/-- A pixel read after `DispSet` (R123). -/
@[simp] theorem State.pixel_dispSet (px qx : Col) (py qy : Row) (b : Bool) (s : State) :
    (s.dispSet px py b).pixel qx qy = if qx = px ∧ qy = py then b else s.pixel qx qy :=
  Display.getElem_set s.fb px qx py qy b

/-- A pixel read after `DispClear` (R122). -/
@[simp] theorem State.pixel_dispClear (qx : Col) (qy : Row) (s : State) : s.dispClear.pixel qx qy = false :=
  Display.getElem_clear qx qy

/-- Two displays are equal when all their pixels are. -/
theorem Display.ext_pixels {fb gb : Display} (h : ∀ (px : Col) (py : Row), fb[px][py] = gb[px][py]) : fb = gb := by
  apply Vector.ext
  intro x hx
  apply Vector.ext
  intro y hy
  exact h ⟨x, hx⟩ ⟨y, hy⟩

/-- Two register files are equal when all their registers are. -/
theorem State.v_ext {s t : State} (h : ∀ r, s.getV r = t.getV r) : s.v = t.v := by
  apply Vector.ext
  intro k hk
  exact h ⟨k, hk⟩

/-! ### The two ways a handler leaves pc -/

@[simp] theorem State.skipIf_true (s : State) : s.skipIf true = s.setPc (s.pc + 4) := rfl
@[simp] theorem State.skipIf_false (s : State) : s.skipIf false = s.setPc (s.pc + 2) := rfl

/-- A skip writes `pc` and nothing else (R23). -/
theorem State.skipIf_eq (c : Bool) (s : State) : s.skipIf c = s.setPc (s.pc + if c then 4 else 2) := by
  cases c <;> rfl

/-- A setter of a field to its own value changes nothing. -/
@[simp] theorem State.setPc_self (s : State) : s.setPc s.pc = s := rfl
@[simp] theorem State.setPc_setPc (w u : Word) (s : State) : (s.setPc w).setPc u = s.setPc u := rfl

end Sys2Proof.Machine
end

