-- ==== Sys2Proof/Laws/Memory.lean ====
section
/-! SUPPORT. Memory laws: a read after a write, that every memory operation keeps the canonical form, and that in the
canonical form equal memories are equal data. -/

namespace Sys2Proof.Machine

/-! ### Reading after the parts of a write -/

theorem Memory.get_erase (m : Memory) (k a : Nat) :
    Memory.get (m.erase k) a = if a = k then Config.unlisted else Memory.get m a := by
  induction m with
  | nil => simp [Memory.erase, Memory.get]
  | cons c m ih =>
    obtain ⟨b, v⟩ := c
    simp only [Memory.erase, List.filter_cons, bne_iff_ne, ne_eq] at ih ⊢
    by_cases hb : b = k
    · simp only [hb, not_true, if_false, ih, Memory.get]
      split <;> simp_all
    · simp only [hb, not_false_eq_true, if_true, Memory.get, ih]
      split <;> split <;> simp_all

theorem Memory.get_insert (m : Memory) (k a : Nat) (b : Byte) (h : ∀ c ∈ m, c.1 ≠ k) :
    Memory.get (Memory.insert m k b) a = if a = k then b else Memory.get m a := by
  induction m with
  | nil => simp [Memory.insert, Memory.get]
  | cons c m ih =>
    have ih := ih (fun d hd => h d (List.mem_cons_of_mem _ hd))
    have hc := h c (List.mem_cons_self ..)
    unfold Memory.insert
    split
    · simp only [Memory.get]
    · simp only [Memory.get, ih]
      split <;> split <;> simp_all

theorem Memory.erase_mem (m : Memory) (k : Nat) : ∀ c ∈ m.erase k, c.1 ≠ k := by
  intro c hc
  simpa using (List.mem_filter.mp hc).2

/-- A byte read after a byte is written: the one written, and every other address as before (R71). -/
@[simp] theorem Memory.get_set (m : Memory) (k a : Nat) (b : Byte) :
    Memory.get (Memory.set m k b) a = if a = k then b else Memory.get m a := by
  unfold Memory.set
  split
  · next h => rw [Memory.get_erase, h]
  · exact (Memory.get_insert _ k a b (Memory.erase_mem m k)).trans (by rw [Memory.get_erase]; split <;> rfl)

/-! ### The canonical form -/

theorem Memory.wf_iff (m : Memory) :
    m.wf = true ↔ m.Pairwise (fun c d => c.1 < d.1) ∧ ∀ c ∈ m, c.1 < Config.memSize ∧ c.2 ≠ Config.unlisted := by
  simp [Memory.wf]

theorem Memory.wf_nil : Memory.wf [] = true := rfl

theorem Memory.wf_erase {m : Memory} (h : m.wf = true) (k : Nat) : (m.erase k).wf = true := by
  rw [Memory.wf_iff] at h ⊢
  exact ⟨h.1.filter _, fun c hc => h.2 c (List.mem_filter.mp hc).1⟩

theorem Memory.mem_insert {m : Memory} {k : Nat} {b : Byte} {c : Host.Cell} (h : c ∈ Memory.insert m k b) :
    c = (k, b) ∨ c ∈ m := by
  induction m with
  | nil => simpa [Memory.insert] using h
  | cons d m ih =>
    unfold Memory.insert at h
    split at h
    · simpa using h
    · rcases List.mem_cons.mp h with rfl | h
      · exact .inr (List.mem_cons_self ..)
      · exact (ih h).imp id (List.mem_cons_of_mem _)

theorem Memory.pairwise_insert {m : Memory} {k : Nat} {b : Byte} (h : m.Pairwise (fun c d => c.1 < d.1))
    (hk : ∀ c ∈ m, c.1 ≠ k) : (Memory.insert m k b).Pairwise (fun c d => c.1 < d.1) := by
  induction m with
  | nil => simp [Memory.insert]
  | cons d m ih =>
    rw [List.pairwise_cons] at h
    unfold Memory.insert
    split
    · next hlt =>
      rw [List.pairwise_cons, List.pairwise_cons]
      refine ⟨fun c hc => ?_, h⟩
      rcases List.mem_cons.mp hc with rfl | hc
      · exact hlt
      · exact Nat.lt_trans hlt (h.1 c hc)
    · next hge =>
      have hd := hk d (List.mem_cons_self ..)
      rw [List.pairwise_cons]
      refine ⟨fun c hc => ?_, ih h.2 (fun c hc => hk c (List.mem_cons_of_mem _ hc))⟩
      rcases Memory.mem_insert hc with rfl | hc
      · simp only; omega
      · exact h.1 c hc

/-- Every write keeps the canonical form. -/
theorem Memory.wf_set {m : Memory} (h : m.wf = true) {k : Nat} (hk : k < Config.memSize) (b : Byte) :
    (Memory.set m k b).wf = true := by
  unfold Memory.set
  split
  · exact Memory.wf_erase h k
  · next hb =>
    have he := (Memory.wf_iff _).mp (Memory.wf_erase h k)
    rw [Memory.wf_iff]
    refine ⟨Memory.pairwise_insert he.1 (Memory.erase_mem m k), fun c hc => ?_⟩
    rcases Memory.mem_insert hc with rfl | hc
    · exact ⟨hk, hb⟩
    · exact he.2 c hc

/-- The loader keeps the canonical form (R66). -/
theorem Memory.wf_load {m : Memory} (h : m.wf = true) (a : Nat) (bs : List Byte) (hk : a + bs.length ≤ Config.memSize) :
    (Memory.load m a bs).wf = true := by
  induction bs generalizing m a with
  | nil => exact h
  | cons b bs ih =>
    simp only [List.length_cons] at hk
    exact ih (Memory.wf_set h (by omega) b) (a + 1) (by omega)

/-- What the host fills in `Idle` keeps the canonical form (R131). -/
theorem Memory.wf_fill {m : Memory} (h : m.wf = true) (cells : List (Fin Config.memSize × Byte)) :
    (Memory.fill m cells).wf = true := by
  induction cells generalizing m with
  | nil => exact h
  | cons c cells ih => exact ih (Memory.wf_set h c.1.isLt c.2)

/-- A byte read after the host filled memory: the last one listed for its address, else the old one (R131). -/
theorem Memory.get_fill (m : Memory) (cells : List (Fin Config.memSize × Byte)) (k : Nat) :
    Memory.get (Memory.fill m cells) k = byteAfterFill cells k (Memory.get m k) := by
  induction cells generalizing m with
  | nil => rfl
  | cons c cells ih =>
    rw [show Memory.fill m (c :: cells) = Memory.fill (Memory.set m c.1.val c.2) cells from rfl, ih, Memory.get_set]
    simp only [byteAfterFill, List.reverse_cons, List.find?_append]
    cases h : cells.reverse.find? (fun c => c.1.val == k) with
    | some d => rfl
    | none =>
      by_cases e : k = c.1.val
      · subst e; simp
      · simp [e, Ne.symm e]

/-- The launch leaves memory in canonical form, however long the program is (R66). -/
theorem launch_memory_wf (rom : List Byte) : (State.launch rom).mem.wf = true :=
  Memory.wf_load (Memory.wf_load Memory.wf_nil _ _ (by decide)) _ _
    (by simp only [List.length_take, Config.memSize, Config.romBase]; omega)

theorem reset_memory_wf : State.reset.mem.wf = true := rfl

/-- A listed cell of a canonical memory is what its address reads as. -/
theorem Memory.get_of_mem {m : Memory} (h : m.Pairwise (fun c d => c.1 < d.1)) {c : Host.Cell} (hc : c ∈ m) :
    Memory.get m c.1 = c.2 := by
  induction m with
  | nil => cases hc
  | cons d m ih =>
    rw [List.pairwise_cons] at h
    obtain ⟨a, b⟩ := d
    rcases List.mem_cons.mp hc with rfl | hc
    · simp [Memory.get]
    · have : c.1 ≠ a := Nat.ne_of_gt (h.1 c hc)
      simp [Memory.get, this, ih h.2 hc]

theorem Memory.get_of_lt {m : Memory} {k : Nat} (h : ∀ c ∈ m, k < c.1) : Memory.get m k = Config.unlisted := by
  induction m with
  | nil => rfl
  | cons d m ih =>
    obtain ⟨a, b⟩ := d
    have : k ≠ a := Nat.ne_of_lt (h (a, b) (List.mem_cons_self ..))
    simp [Memory.get, this, ih (fun c hc => h c (List.mem_cons_of_mem _ hc))]

/-- In the canonical form equal memories are equal data. -/
theorem Memory.eq_of_get {m n : Memory} (hm : m.wf = true) (hn : n.wf = true)
    (h : ∀ a, Memory.get m a = Memory.get n a) : m = n := by
  rw [Memory.wf_iff] at hm hn
  induction m generalizing n with
  | nil =>
    cases n with
    | nil => rfl
    | cons d n =>
      have := h d.1
      rw [Memory.get_of_mem hn.1 (List.mem_cons_self ..)] at this
      exact ((hn.2 d (List.mem_cons_self ..)).2 this.symm).elim
  | cons c m ih =>
    cases n with
    | nil =>
      have := h c.1
      rw [Memory.get_of_mem hm.1 (List.mem_cons_self ..)] at this
      exact ((hm.2 c (List.mem_cons_self ..)).2 this).elim
    | cons d n =>
      have hm1 := List.pairwise_cons.mp hm.1
      have hn1 := List.pairwise_cons.mp hn.1
      have hc := h c.1
      have hd := h d.1
      rw [Memory.get_of_mem hm.1 (List.mem_cons_self ..)] at hc
      rw [Memory.get_of_mem hn.1 (List.mem_cons_self ..)] at hd
      have hkey : c.1 = d.1 := by
        rcases Nat.lt_trichotomy c.1 d.1 with hlt | he | hlt
        · have : Memory.get (d :: n) c.1 = Config.unlisted := by
            apply Memory.get_of_lt
            intro e he
            rcases List.mem_cons.mp he with rfl | he
            · exact hlt
            · exact Nat.lt_trans hlt (hn1.1 e he)
          exact ((hm.2 c (List.mem_cons_self ..)).2 (hc.trans this)).elim
        · exact he
        · have : Memory.get (c :: m) d.1 = Config.unlisted := by
            apply Memory.get_of_lt
            intro e he
            rcases List.mem_cons.mp he with rfl | he
            · exact hlt
            · exact Nat.lt_trans hlt (hm1.1 e he)
          exact ((hn.2 d (List.mem_cons_self ..)).2 (hd.symm.trans this)).elim
      have hval : c.2 = d.2 := by
        rw [hc, hkey, Memory.get_of_mem hn.1 (List.mem_cons_self ..)]
      have hcd : c = d := Prod.ext hkey hval
      subst hcd
      congr 1
      refine ih ⟨hm1.2, fun e he => hm.2 e (List.mem_cons_of_mem _ he)⟩
        ⟨hn1.2, fun e he => hn.2 e (List.mem_cons_of_mem _ he)⟩ (fun a => ?_)
      have ha := h a
      simp only [Memory.get] at ha
      by_cases e : a = c.1
      · rw [e, Memory.get_of_lt hm1.1, Memory.get_of_lt hn1.1]
      · simpa [e] using ha

end Sys2Proof.Machine
end

