-- ==== Sys2Proof/Laws/Ops.lean ====
section
/-! SUPPORT. One spec lemma per shared operation: everything it can do, said once. Proofs about instructions and steps
cite these instead of unfolding the operation. -/

namespace Sys2Proof.Machine

/-! ### One access (R62) -/

/-- A memory write that answers, as a function of the state. -/
def State.stored (a : Fin Config.memSize) (b : Byte) (s : State) : State :=
  State.log (.memWrite a b) { s with mem := Memory.set s.mem a b }

theorem State.memRead_lt {a : Nat} (s : State) (h : a < Config.memSize) :
    s.memRead a = .ok (s.byteAt a) (s.log (.memRead ⟨a, h⟩ (s.byteAt a))) := by
  simp [State.memRead, h]

theorem State.memRead_ge {a : Nat} (s : State) (h : Config.memSize ≤ a) :
    s.memRead a = .raised (.memoryFault a) s := by
  simp [State.memRead, Nat.not_lt.mpr h]

theorem State.memWrite_lt {a : Nat} (b : Byte) (s : State) (h : a < Config.memSize) :
    s.memWrite a b = .ok () (s.stored ⟨a, h⟩ b) := by
  simp [State.memWrite, State.stored, h]

theorem State.memWrite_ge {a : Nat} (b : Byte) (s : State) (h : Config.memSize ≤ a) :
    s.memWrite a b = .raised (.memoryFault a) s := by
  simp [State.memWrite, Nat.not_lt.mpr h]

@[simp] theorem State.byteAt_stored (a : Fin Config.memSize) (b : Byte) (s : State) (k : Nat) :
    (s.stored a b).byteAt k = if k = a then b else s.byteAt k :=
  Memory.get_set s.mem a k b

theorem State.stored_wf (a : Fin Config.memSize) (b : Byte) {s : State} (h : s.mem.wf = true) :
    (s.stored a b).mem.wf = true :=
  Memory.wf_set h a.isLt b

/-- A write changes memory and the trace, nothing else (R71). -/
theorem State.stored_frame (a : Fin Config.memSize) (b : Byte) (s : State) :
    s.stored a b = { s with mem := (s.stored a b).mem, trace := s.trace ++ [.memWrite a b] } := rfl

/-! ### Range checks (R79) -/

theorem rangeFault_none {base count : Nat} (h : count = 0 ∨ base + count ≤ Config.memSize) :
    rangeFault base count = none := by
  have : ¬ (0 < count ∧ Config.memSize ≤ base + count - 1) := by
    rintro ⟨h1, h2⟩; simp only [Config.memSize] at *; omega
  simp [rangeFault, this]

theorem rangeFault_some {base count : Nat} (h0 : 0 < count) (h : Config.memSize < base + count) :
    rangeFault base count = some (.memoryFault (max base Config.memSize)) := by
  have : 0 < count ∧ Config.memSize ≤ base + count - 1 := ⟨h0, by simp only [Config.memSize] at *; omega⟩
  simp [rangeFault, this]

/-- `CheckRange` either answers, on a range inside memory or of no bytes, or raises; it changes nothing. -/
theorem State.checkRange_cases (base count : Nat) (s : State) :
    ((count = 0 ∨ base + count ≤ Config.memSize) ∧ s.checkRange base count = .ok () s) ∨
    (0 < count ∧ Config.memSize < base + count ∧
      s.checkRange base count = .raised (.memoryFault (max base Config.memSize)) s) := by
  by_cases h : count = 0 ∨ base + count ≤ Config.memSize
  · exact .inl ⟨h, by simp [State.checkRange, rangeFault_none h]⟩
  · have h0 : 0 < count := by omega
    have h1 : Config.memSize < base + count := by omega
    exact .inr ⟨h0, h1, by simp [State.checkRange, rangeFault_some h0 h1]⟩

/-! ### Fetch (R64) -/

theorem State.fetch16_ok {a : Nat} (s : State) (h : a + 1 < Config.memSize) :
    s.fetch16 a = .ok (s.byteAt a ++ s.byteAt (a + 1))
      ((s.log (.memRead ⟨a, Nat.lt_of_succ_lt h⟩ (s.byteAt a))).log (.memRead ⟨a + 1, h⟩ (s.byteAt (a + 1)))) := by
  simp only [State.fetch16, State.memRead_lt s (Nat.lt_of_succ_lt h), State.memRead_lt _ h, State.log_byteAt]

theorem State.fetch16_outside {a : Nat} (s : State) (h : Config.memSize ≤ a) :
    s.fetch16 a = .raised (.memoryFault a) s := by
  simp only [State.fetch16, State.memRead_ge s h]

theorem State.fetch16_last {a : Nat} (s : State) (h : a + 1 = Config.memSize) :
    s.fetch16 a =
      .raised (.memoryFault Config.memSize) (s.log (.memRead ⟨a, by omega⟩ (s.byteAt a))) := by
  simp only [State.fetch16, State.memRead_lt s (show a < Config.memSize by omega), h]
  rw [State.memRead_ge _ (Nat.le_refl _)]

/-! ### Runs of bytes (R73, R205, R206) -/

/-- An address as the `MEM` port carries it (R121); the address itself when it is inside memory. -/
def portAddr (a : Nat) : Fin Config.memSize := ⟨a % Config.memSize, Nat.mod_lt _ (by decide)⟩

theorem portAddr_of_lt {a : Nat} (h : a < Config.memSize) : portAddr a = ⟨a, h⟩ := Fin.ext (Nat.mod_eq_of_lt h)

/-- The transactions of `storeBytes`: one write per byte, ascending. -/
def storeEvents : Nat → List Byte → List Event
  | _, [] => []
  | a, b :: bs => .memWrite (portAddr a) b :: storeEvents (a + 1) bs

/-- `storeBytes` inside memory answers; it writes each byte at its address, in ascending order, and nothing else. -/
theorem State.storeBytes_ok (a : Nat) (bs : List Byte) (s : State) (h : a + bs.length ≤ Config.memSize) :
    ∃ t, s.storeBytes a bs = .ok () t ∧
      t = { s with mem := t.mem, trace := s.trace ++ storeEvents a bs } ∧
      (∀ k, t.byteAt k = if h : a ≤ k ∧ k < a + bs.length then bs[k - a] else s.byteAt k) ∧
      (s.mem.wf = true → t.mem.wf = true) ∧
      t.outside = (storeEvents a bs).foldl Outside.after s.outside := by
  induction bs generalizing a s with
  | nil => exact ⟨s, rfl, by simp [storeEvents], fun k => by simp, id, rfl⟩
  | cons b bs ih =>
    simp only [List.length_cons] at h
    have ha : a < Config.memSize := by omega
    obtain ⟨t, ht, hf, hr, hw, ho⟩ := ih (a + 1) (s.stored ⟨a, ha⟩ b) (by omega)
    refine ⟨t, ?_, ?_, fun k => ?_, fun hm => hw (State.stored_wf _ _ hm), ?_⟩
    · simp only [State.storeBytes, State.memWrite_lt b s ha, ht]
    · rw [hf]
      simp [State.stored, State.log, storeEvents, portAddr_of_lt ha]
    · rw [hr k, State.byteAt_stored]
      by_cases hk : k = a
      · subst hk
        simp
      · by_cases h1 : a ≤ k ∧ k < a + (bs.length + 1)
        · have h2 : a + 1 ≤ k ∧ k < a + 1 + bs.length := by omega
          have h3 : k - a = (k - (a + 1)) + 1 := by omega
          simp only [List.length_cons, dif_pos h1, dif_pos h2, h3, List.getElem_cons_succ]
        · have h2 : ¬ (a + 1 ≤ k ∧ k < a + 1 + bs.length) := by omega
          simp only [List.length_cons, dif_neg h1, dif_neg h2, hk, if_false]
    · rw [ho]
      simp [storeEvents, portAddr_of_lt ha, State.stored, State.outside, Outside.after]

/-- The transactions of `loadRegs`: one read per register, ascending. -/
def readEvents (s : State) (a : Nat) : Nat → List Event
  | 0 => []
  | count + 1 => .memRead (portAddr a) (s.byteAt a) :: readEvents s (a + 1) count

theorem readEvents_congr {s t : State} (h : t.mem = s.mem) (a count : Nat) :
    readEvents t a count = readEvents s a count := by
  induction count generalizing a with
  | zero => rfl
  | succ n ih => simp only [readEvents, ih, State.byteAt, h]

/-- Reads leave what lies outside the block as it was (R71). -/
theorem readEvents_outside (s : State) (a count : Nat) (o : Outside) :
    (readEvents s a count).foldl Outside.after o = o := by
  induction count generalizing a with
  | zero => rfl
  | succ n ih => simp [readEvents, Outside.after, ih]

/-- `loadRegs` inside memory answers; it loads registers `k` to `k + count - 1` and nothing else. -/
theorem State.loadRegs_ok (count k : Nat) (s : State) (h : s.base + k + count ≤ Config.memSize)
    (hk : k + count ≤ 16) :
    ∃ t, s.loadRegs count k = .ok () t ∧
      t = { s with v := t.v, trace := s.trace ++ readEvents s (s.base + k) count } ∧
      ∀ r : Reg, t.getV r = if k ≤ r.val ∧ r.val < k + count then s.byteAt (s.base + r.val) else s.getV r := by
  induction count generalizing k s with
  | zero => exact ⟨s, rfl, by simp [readEvents], fun r => by simp⟩
  | succ n ih =>
    have ha : s.base + k < Config.memSize := by omega
    let t0 := ((s.log (.memRead ⟨s.base + k, ha⟩ (s.byteAt (s.base + k)))).setV (Fin.ofNat 16 k)
      (s.byteAt (s.base + k)))
    obtain ⟨t, ht, hf, hr⟩ := ih (k + 1) t0 (by simp [t0]; omega) (by omega)
    refine ⟨t, ?_, ?_, fun r => ?_⟩
    · simp only [State.loadRegs, State.memRead_lt s ha]
      exact ht
    · have e : readEvents t0 (s.base + (k + 1)) n = readEvents s (s.base + k + 1) n :=
        readEvents_congr (s := s) (t := t0) rfl _ _
      have eb : t0.base = s.base := rfl
      rw [hf, eb, e]
      simp [t0, readEvents, portAddr_of_lt ha, State.log, State.setV]
    · rw [hr r]
      have hr16 : (r = Fin.ofNat 16 k) ↔ r.val = k := by
        rw [Fin.ext_iff]; simp [Fin.ofNat]; omega
      simp only [t0, State.setV_base, State.log_base, State.setV_byteAt, State.log_byteAt, State.getV_setV, hr16,
        State.log_getV]
      by_cases h1 : k + 1 ≤ r.val ∧ r.val < k + 1 + n
      · have h2 : k ≤ r.val ∧ r.val < k + (n + 1) := by omega
        rw [if_pos h1, if_pos h2]
      · rw [if_neg h1]
        by_cases h3 : r.val = k
        · rw [if_pos h3, if_pos (by omega), h3]
        · rw [if_neg h3, if_neg (by omega)]

/-! ### The call stack (R26) -/

/-- `push` either appends, below the bound, or raises on a full stack and changes nothing. -/
theorem State.push_cases (w : Word) (s : State) :
    (s.sp ≠ Config.stackDepth ∧ s.push w = .ok () { s with stack := s.stack ++ [w] }) ∨
    (s.sp = Config.stackDepth ∧ s.push w = .raised (.stackOverflow w) s) := by
  by_cases h : s.sp = Config.stackDepth
  · exact .inr ⟨h, by simp [State.push, h]⟩
  · exact .inl ⟨h, by simp [State.push, h]⟩

/-- `pop` either removes the newest entry, or raises on an empty stack and changes nothing. -/
theorem State.pop_cases (s : State) :
    (∃ rest w, s.stack = rest ++ [w] ∧ s.pop = .ok w { s with stack := rest }) ∨
    (s.stack = [] ∧ s.pop = .raised .stackUnderflow s) := by
  rcases List.eq_nil_or_concat s.stack with h | ⟨rest, w, h⟩
  · exact .inr ⟨h, by simp [State.pop, h]⟩
  · rw [List.concat_eq_append] at h
    exact .inl ⟨rest, w, h, by simp [State.pop, h]⟩

/-! ### Drawing (R232) -/

/-- The transactions of one flipped pixel. -/
def flipEvents (old : Bool) (px : Col) (py : Row) : List Event :=
  [.dispGet px py old, .dispSet px py (!old)] ++ if old then [] else [.dispMarkDirty]

/-- One set sprite bit: its pixel is flipped, a set pixel sets `VF`, a clear one marks the display dirty. -/
theorem State.flipPixel_spec (px : Col) (py : Row) (s : State) :
    (∀ qx qy, (s.flipPixel px py).pixel qx qy = if qx = px ∧ qy = py then !s.pixel px py else s.pixel qx qy) ∧
    (∀ r, (s.flipPixel px py).getV r = if r = VF ∧ s.pixel px py = true then 1 else s.getV r) ∧
    s.flipPixel px py =
      { s with
        v := (s.flipPixel px py).v, fb := (s.flipPixel px py).fb, dirty := s.dirty || !s.pixel px py,
        trace := s.trace ++ flipEvents (s.pixel px py) px py } ∧
    (s.flipPixel px py).outside = (flipEvents (s.pixel px py) px py).foldl Outside.after s.outside := by
  cases h : s.pixel px py with
  | true =>
    simp only [State.flipPixel, h, if_true]
    refine ⟨fun qx qy => by simp, fun r => by simp, ?_, ?_⟩
    · simp [State.setV, State.dispSet, State.dispGet, State.log, flipEvents, h]
    · simp [flipEvents, State.outside, Outside.after]
  | false =>
    simp only [State.flipPixel, h]
    refine ⟨fun qx qy => by simp, fun r => by simp, ?_, ?_⟩
    · simp [State.dispMarkDirty, State.dispSet, State.dispGet, State.log, flipEvents, h]
    · simp [flipEvents, State.outside, Outside.after]

/-! ### The tick (R137, R138) -/

/-- The whole of the tick: both timers one down, staying at 0, and one `play()` if `ST` was not 0. -/
theorem State.tick_eq (s : State) :
    s.tick =
      { s with
        dt := if s.dt = 0 then 0 else s.dt - 1, st := if s.st = 0 then 0 else s.st - 1,
        trace := s.trace ++ if s.st = 0 then [] else [.play] } := by
  have hd : s.tickDelay = { s with dt := if s.dt = 0 then 0 else s.dt - 1 } := by
    unfold State.tickDelay
    split
    · next h => rw [← h]
    · rfl
  have hs : ∀ t : State, t.tickSound =
      { t with st := if t.st = 0 then 0 else t.st - 1, trace := t.trace ++ if t.st = 0 then [] else [.play] } := by
    intro t
    unfold State.tickSound
    split
    · next h => rw [← h, List.append_nil]
    · rfl
  rw [State.tick, hs, hd]

end Sys2Proof.Machine
end

