-- ==== Sys2Proof/Laws/Cycle.lean ====
section
/-! SUPPORT. Spec lemmas of the cycle and the step: what the end of a cycle does, what the block does of itself in each
mode, and how a step follows from it. -/

namespace Sys2Proof.Machine

/-- Steps 4 and 5 of a cycle write the timers, the dirty flag, the free-value counter and the trace, nothing else. -/
theorem State.finishCycle_frame (s : State) :
    s.finishCycle =
      { s with
        dt := s.finishCycle.dt, st := s.finishCycle.st, dirty := s.finishCycle.dirty, draws := s.finishCycle.draws,
        trace := s.finishCycle.trace } := by
  simp only [State.finishCycle, State.tick_eq]; rfl

/-- The transactions of steps 4 and 5, and what they leave outside the block (R137 to R139). -/
theorem State.finishCycle_events (s : State) :
    s.finishCycle.trace = s.trace ++ ((if s.st = 0 then [] else [.play]) ++ [.sync]) ∧
    s.finishCycle.outside =
      List.foldl Outside.after s.outside ((if s.st = 0 then [] else [.play]) ++ [.sync]) := by
  constructor
  · simp [State.finishCycle, State.tick_eq]
  · have h1 : ∀ t : State, t.sync.outside = Outside.after t.outside .sync := fun _ => rfl
    have h2 : s.tick.outside = s.outside := by rw [State.tick_eq]; rfl
    rw [State.finishCycle, h1, h2, List.foldl_append]
    split <;> rfl

/-- After a handler: steps 4 and 5 in `Running`, nothing otherwise. -/
theorem State.afterHandler_cases (s : State) :
    (s.mode = .running ∧ s.afterHandler = s.finishCycle) ∨ (s.mode ≠ .running ∧ s.afterHandler = s) := by
  unfold State.afterHandler
  split
  · next h => exact .inl ⟨h, rfl⟩
  all_goals next h => exact .inr ⟨by simp [h], rfl⟩

/-- Outside `Running` the block does nothing of itself (R132). -/
theorem State.proceed_idle {s : State} (h : s.mode ≠ .running) : s.proceed = .next s := by
  unfold State.proceed
  split
  · next e => exact (h e).elim
  all_goals rfl

/-- In `Running` with the stop request set the block stops and does nothing else (R133). -/
theorem State.proceed_stop {s : State} (h : s.mode = .running) (hs : s.stopReq = true) :
    s.proceed = .next (s.setMode .stopped) := by
  unfold State.proceed
  rw [h]
  simp only [State.cycle, hs, if_true]

/-- In `Running` without a stop request the block fetches and dispatches (R134 to R136). -/
theorem State.proceed_ready {s : State} (h : s.Ready) :
    s.proceed = match s.fetch16 s.pc.toNat with
      | .raised f t => .next (t.enterFault f)
      | .ok op t => t.dispatch op := by
  unfold State.proceed
  rw [h.1]
  simp only [State.cycle, h.2]
  rfl

/-- A step from what the block does of itself (R132, R142). -/
theorem step_of_proceed {s t : State} (h : s.dropInput.proceed = .next t) :
    step s = .next (applyInput s.input s.dropInput t) := by
  simp only [step, State.oneStep, h]

/-- The input of a step where one is listed, and the state without it. -/
theorem State.input_listed {s : State} {inp : Input} {rest : List Input} (h : s.inputs = inp :: rest) :
    s.input = inp ∧ s.dropInput = { s with inputs := rest } := by
  simp [State.input, State.dropInput, h]

/-- The input of a quiet step, and the state without it. -/
theorem State.input_quiet {s : State} (hq : s.Quiet) :
    s.input = Input.quiet ∧ s.dropInput = { s with inputs := s.inputs.tail } := by
  obtain ⟨rest, h⟩ := List.head?_eq_some_iff.mp hq
  simpa [h] using State.input_listed h

/-- The same in a quiet step. -/
theorem step_quiet {s t : State} (hq : s.Quiet) (h : s.dropInput.proceed = .next t) : step s = .next t := by
  rw [step_of_proceed h, (State.input_quiet hq).1]
  rfl

/-- After the listed inputs a step takes a free one, and is what it would be with that one listed (R307). -/
theorem step_of_inputs_nil {s : State} (h : s.inputs = []) :
    step s = step { s with
      inputs := [⟨Config.laterArrival s.moments, Config.laterReset s.moments⟩], moments := s.moments + 1 } := by
  simp only [step, State.oneStep, State.input, State.dropInput, h]
  rfl

/-- What an arrival adds to the trace, and that it accounts for what it does outside the block (R129, R131, R141). -/
theorem State.arrive_events (a : Option Arrival) (s : State) :
    ∃ es, (s.arrive a).trace = s.trace ++ es ∧ (s.arrive a).outside = es.foldl Outside.after s.outside ∧
      (s.mode ≠ .idle → ∀ e ∈ es, e.byHost = false) := by
  match a with
  | none => exact ⟨[], by simp [State.arrive]⟩
  | some .start =>
    refine ⟨[], ?_⟩
    simp only [State.arrive, State.onStart]
    split <;> simp [State.outside]
  | some .closed =>
    refine ⟨[], ?_⟩
    simp only [State.arrive, State.onClosed]
    split <;> simp [State.outside]
  | some (.key code) =>
    simp only [State.arrive, State.onKey]
    split
    · next kx _ =>
      obtain ⟨h1, h2⟩ := State.finishCycle_events (s.takeKey kx code)
      refine ⟨.keyDelivered code :: ((if (s.takeKey kx code).st = 0 then [] else [.play]) ++ [.sync]), ?_, ?_, ?_⟩
      · rw [h1]; simp [State.takeKey]
      · rw [h2]; rfl
      · intro _ e he
        simp only [List.mem_cons, List.mem_append, List.not_mem_nil, or_false] at he
        rcases he with rfl | he | rfl
        · rfl
        · split at he <;> simp_all [Event.byHost]
        · rfl
    all_goals exact ⟨[], by simp⟩
  | some (.hostFill cells) =>
    simp only [State.arrive, State.onHostFill]
    split
    · next h => exact ⟨[.hostFill cells], rfl, rfl, fun n => (n h).elim⟩
    all_goals exact ⟨[], by simp⟩
  | some (.hostPicture fb dirty) =>
    simp only [State.arrive, State.onHostPicture]
    split
    · next h => exact ⟨[.hostPicture fb dirty], rfl, rfl, fun n => (n h).elim⟩
    all_goals exact ⟨[], by simp⟩

/-- A byte read after the loader placed bytes (R66). -/
theorem Memory.get_load (m : Memory) (a : Nat) (bs : List Byte) (k : Nat) :
    Memory.get (Memory.load m a bs) k =
      if h : a ≤ k ∧ k < a + bs.length then bs[k - a] else Memory.get m k := by
  induction bs generalizing m a with
  | nil => simp [Memory.load]
  | cons b bs ih =>
    rw [Memory.load, ih, Memory.get_set]
    by_cases hk : k = a
    · subst hk; simp
    · by_cases h1 : a ≤ k ∧ k < a + (bs.length + 1)
      · have h2 : a + 1 ≤ k ∧ k < a + 1 + bs.length := by omega
        have h3 : k - a = (k - (a + 1)) + 1 := by omega
        simp only [List.length_cons, dif_pos h1, dif_pos h2, h3, List.getElem_cons_succ]
      · have h2 : ¬ (a + 1 ≤ k ∧ k < a + 1 + bs.length) := by omega
        simp only [List.length_cons, dif_neg h1, dif_neg h2, hk, if_false]

end Sys2Proof.Machine
end

