-- ==== Sys2Proof/Laws/Decode.lean ====
section
/-! SUPPORT. Laws of the opcode table and the fields: what each of the four masks of spec/30_encoding.md R92 keeps of
an opcode, as arithmetic; that any two rows differ in a bit both masks cover (R97); and the instruction a word decodes
to once a row accepts it. Proofs about decoding cite these instead of unfolding the table. -/

namespace Sys2Proof.Laws

/-! ### Masks as arithmetic -/

/-- And works nibble by nibble. -/
theorem nat_and_nibble (q r q' r' : Nat) (h : r < 16) (h' : r' < 16) :
    (16 * q + r) &&& (16 * q' + r') = 16 * (q &&& q') + (r &&& r') := by
  have hr : r &&& r' < 2 ^ 4 := Nat.and_lt_two_pow _ h'
  apply Nat.eq_of_testBit_eq
  intro j
  have e := Nat.testBit_two_pow_mul_add (i := 4) q h j
  have e' := Nat.testBit_two_pow_mul_add (i := 4) q' h' j
  have e2 := Nat.testBit_two_pow_mul_add (i := 4) (q &&& q') hr j
  simp only [Nat.reducePow] at e e' e2
  rw [Nat.testBit_and, e, e', e2]
  split <;> simp

/-- And with a mask given by its nibbles. -/
theorem nat_and_nibbles (a m3 m2 m1 m0 : Nat) (h2 : m2 < 16) (h1 : m1 < 16) (h0 : m0 < 16) :
    a &&& (16 * (16 * (16 * m3 + m2) + m1) + m0) =
      16 * (16 * (16 * (a / 4096 &&& m3) + (a / 256 % 16 &&& m2)) + (a / 16 % 16 &&& m1)) + (a % 16 &&& m0) := by
  have e : a = 16 * (16 * (16 * (a / 4096) + a / 256 % 16) + a / 16 % 16) + a % 16 := by omega
  conv => lhs; rw [e]
  rw [nat_and_nibble _ _ _ _ (by omega) h0, nat_and_nibble _ _ _ _ (by omega) h1,
    nat_and_nibble _ _ _ _ (by omega) h2]

theorem nibble_and_15 (a : Nat) : a % 16 &&& 15 = a % 16 := by
  have := Nat.and_two_pow_sub_one_eq_mod (a % 16) 4
  simpa using this

theorem top_nibble_and_15 (op : Word) : op.toNat / 4096 &&& 15 = op.toNat / 4096 := by
  have h := op.isLt
  have g : op.toNat / 4096 % 16 = op.toNat / 4096 := by omega
  simpa [g] using nibble_and_15 (op.toNat / 4096)

theorem toNat_and_F000 (op : Word) : (op &&& 0xF000#16).toNat = op.toNat / 4096 * 4096 := by
  have e := nat_and_nibbles op.toNat 15 0 0 0 (by omega) (by omega) (by omega)
  simp only [top_nibble_and_15, Nat.and_zero] at e
  rw [BitVec.toNat_and]
  exact Eq.trans rfl (e.trans (by omega))

theorem toNat_and_F00F (op : Word) : (op &&& 0xF00F#16).toNat = op.toNat / 4096 * 4096 + op.toNat % 16 := by
  have e := nat_and_nibbles op.toNat 15 0 0 15 (by omega) (by omega) (by omega)
  simp only [top_nibble_and_15, nibble_and_15, Nat.and_zero] at e
  rw [BitVec.toNat_and]
  exact Eq.trans rfl (e.trans (by omega))

theorem toNat_and_F0FF (op : Word) : (op &&& 0xF0FF#16).toNat = op.toNat / 4096 * 4096 + op.toNat % 256 := by
  have e := nat_and_nibbles op.toNat 15 0 15 15 (by omega) (by omega) (by omega)
  simp only [top_nibble_and_15, nibble_and_15, Nat.and_zero] at e
  rw [BitVec.toNat_and]
  exact Eq.trans rfl (e.trans (by omega))

theorem and_FFFF (op : Word) : op &&& 0xFFFF#16 = op := by
  have e : (0xFFFF#16 : Word) = BitVec.allOnes 16 := by decide
  rw [e, BitVec.and_allOnes]

/-! ### Which opcodes a row accepts (R94), by its mask -/

theorem accepts_F000 {r : OpcodeRow} (h : r.mask = 0xF000#16) (op : Word) :
    r.accepts op = true ↔ op.toNat / 4096 * 4096 = r.value.toNat := by
  rw [OpcodeRow.accepts, h, beq_iff_eq, ← BitVec.toNat_inj, toNat_and_F000]

theorem accepts_F00F {r : OpcodeRow} (h : r.mask = 0xF00F#16) (op : Word) :
    r.accepts op = true ↔ op.toNat / 4096 * 4096 + op.toNat % 16 = r.value.toNat := by
  rw [OpcodeRow.accepts, h, beq_iff_eq, ← BitVec.toNat_inj, toNat_and_F00F]

theorem accepts_F0FF {r : OpcodeRow} (h : r.mask = 0xF0FF#16) (op : Word) :
    r.accepts op = true ↔ op.toNat / 4096 * 4096 + op.toNat % 256 = r.value.toNat := by
  rw [OpcodeRow.accepts, h, beq_iff_eq, ← BitVec.toNat_inj, toNat_and_F0FF]

theorem accepts_FFFF {r : OpcodeRow} (h : r.mask = 0xFFFF#16) (op : Word) :
    r.accepts op = true ↔ op.toNat = r.value.toNat := by
  rw [OpcodeRow.accepts, h, beq_iff_eq, ← BitVec.toNat_inj, and_FFFF]

/-! ### The fields as arithmetic (R91) -/

@[simp] theorem fieldsOf_c (op : Word) : (fieldsOf op).c.toNat = op.toNat / 4096 := by
  have h := op.isLt
  simp [fieldsOf, Nat.shiftRight_eq_div_pow]; omega
@[simp] theorem fieldsOf_x (op : Word) : ((fieldsOf op).x : Nat) = op.toNat / 256 % 16 := by
  simp [fieldsOf, Nat.shiftRight_eq_div_pow]
@[simp] theorem fieldsOf_y (op : Word) : ((fieldsOf op).y : Nat) = op.toNat / 16 % 16 := by
  simp [fieldsOf, Nat.shiftRight_eq_div_pow]
@[simp] theorem fieldsOf_n (op : Word) : (fieldsOf op).n = op.toNat % 16 := by simp [fieldsOf]
@[simp] theorem fieldsOf_nn (op : Word) : (fieldsOf op).nn.toNat = op.toNat % 256 := by simp [fieldsOf]
@[simp] theorem fieldsOf_nnn (op : Word) : (fieldsOf op).nnn.toNat = op.toNat % 4096 := by simp [fieldsOf]

/-! ### No two rows accept one opcode (R97) -/

/-- Two rows differ in a bit that both masks cover. -/
abbrev RowsDiffer (r q : OpcodeRow) : Prop := r.value &&& q.mask ≠ q.value &&& r.mask

theorem opcodeTable_differ : opcodeTable.Pairwise RowsDiffer := by decide

theorem not_both_accept {r q : OpcodeRow} (h : RowsDiffer r q) {op : Word} (hr : r.accepts op = true)
    (hq : q.accepts op = true) : False := by
  rw [OpcodeRow.accepts, beq_iff_eq] at hr hq
  apply h
  rw [← hr, ← hq, BitVec.and_assoc, BitVec.and_assoc, BitVec.and_comm r.mask]

/-- A row that accepts the opcode is the row the scan finds. -/
theorem find_of_accepts {table : List OpcodeRow} (hd : table.Pairwise RowsDiffer) {r : OpcodeRow} (hr : r ∈ table)
    {op : Word} (ha : r.accepts op = true) : table.find? (fun q => q.accepts op) = some r := by
  induction table with
  | nil => cases hr
  | cons q rest ih =>
    rw [List.pairwise_cons] at hd
    rcases List.mem_cons.mp hr with rfl | hr
    · simp [ha]
    · have : q.accepts op = false := by
        cases hq : q.accepts op with
        | false => rfl
        | true => exact (not_both_accept (hd.1 r hr) hq ha).elim
      simpa [this] using ih hd.2 hr

/-- One spec lemma for the decoder: a row of the table that accepts the opcode builds the instruction. -/
theorem decodeWord_of_accepts {r : OpcodeRow} (hr : r ∈ opcodeTable) {op : Word} (ha : r.accepts op = true) :
    decodeWord op = .ok (r.build (fieldsOf op)) := by
  simp [decodeWord, find_of_accepts opcodeTable_differ hr ha]

/-- And its converse: what a word decodes to, some row that accepts it built. -/
theorem accepts_of_decodeWord {op : Word} {i : Instr} (h : decodeWord op = .ok i) :
    ∃ r ∈ opcodeTable, r.accepts op = true ∧ i = r.build (fieldsOf op) := by
  unfold decodeWord at h
  split at h
  · next r hf =>
    exact ⟨r, List.mem_of_find?_eq_some hf, List.find?_some (p := fun q : OpcodeRow => q.accepts op) hf, by cases h; rfl⟩
  · cases h

/-- A word that no row accepts is rejected with the raw opcode. -/
theorem decodeWord_error {op : Word} (h : ∀ r ∈ opcodeTable, r.accepts op = false) :
    decodeWord op = .error (.unimplementedInstruction op) := by
  have : opcodeTable.find? (fun r => r.accepts op) = none := by
    rw [List.find?_eq_none]; intro r hr; simp [h r hr]
  simp [decodeWord, this]

/-- The error of the decoder carries the raw opcode. -/
theorem decodeWord_error_op {op : Word} {e : Reject} (h : decodeWord op = .error e) :
    e = .unimplementedInstruction op ∧ ∀ r ∈ opcodeTable, r.accepts op = false := by
  unfold decodeWord at h
  split at h
  · cases h
  · next hf =>
    rw [List.find?_eq_none] at hf
    exact ⟨by cases h; rfl, fun r hr => by simpa using hf r hr⟩

/-! ### The words the encoder builds, as numbers -/

theorem toNat_wordNNN {value : Nat} (nnn : Addr12) (h : value + 4096 ≤ 65536) :
    (wordNNN value nnn).toNat = value + nnn.toNat := by
  have := nnn.isLt
  simp only [wordNNN, BitVec.toNat_ofNat]; omega
theorem toNat_wordXNN {value : Nat} (x : Reg) (nn : Byte) (h : value + 4096 ≤ 65536) :
    (wordXNN value x nn).toNat = value + x.val * 256 + nn.toNat := by
  have := nn.isLt; have := x.isLt
  simp only [wordXNN, BitVec.toNat_ofNat]; omega
theorem toNat_wordXY {value : Nat} (x y : Reg) (h : value + 4080 < 65536) :
    (wordXY value x y).toNat = value + x.val * 256 + y.val * 16 := by
  have := y.isLt; have := x.isLt
  simp only [wordXY, BitVec.toNat_ofNat]; omega
theorem toNat_wordX {value : Nat} (x : Reg) (h : value + 3840 < 65536) :
    (wordX value x).toNat = value + x.val * 256 := by
  have := x.isLt
  simp only [wordX, BitVec.toNat_ofNat]; omega
theorem toNat_wordXYN {value : Nat} (x y : Reg) (n : Nat) (h : value + 4096 ≤ 65536) :
    (wordXYN value x y n).toNat = value + x.val * 256 + y.val * 16 + n % 16 := by
  have := y.isLt; have := x.isLt
  simp only [wordXYN, BitVec.toNat_ofNat]; omega

end Sys2Proof.Laws
end

