-- ==== Sys2Proof/Laws/Draw.lean ====
section
/-! SUPPORT. The spec lemma of drawing (spec/45_display_keypad.md R232): what the rows of a sprite do to the state,
said once over the list of pixels under the sprite's set bits. -/

namespace Sys2Proof.Machine

/-! ### What any number of flips and sprite reads leaves alone -/

/-- The transactions a sprite's rows make (R232 step 4). -/
def Event.ofDraw : Event → Bool
  | .memRead _ _ | .dispGet _ _ _ | .dispSet _ _ _ | .dispMarkDirty => true
  | .memWrite _ _ | .dispClear | .sync | .isKeyDown _ _ | .waitForAnyKey | .keyDelivered _ | .play | .rand _
  | .seed | .hostFill _ | .hostPicture _ _ => false

/-- Between `s` and `t` the display, the dirty flag and `VF` may have changed, and the listed accesses were made on the
`MEM` port; nothing else happened. -/
structure DrawFrame (acc : List (Bool × Nat × Byte)) (s t : State) : Prop where
  frame  : t = { s with v := t.v, fb := t.fb, dirty := t.dirty, trace := t.trace }
  regs   : ∀ r, r ≠ VF → t.getV r = s.getV r
  flag   : t.getV VF = s.getV VF ∨ t.getV VF = 1
  events : ∃ es, t.trace = s.trace ++ es ∧ t.outside = es.foldl Outside.after s.outside ∧
    es.filterMap Event.access = acc ∧ ∀ e ∈ es, e.ofDraw = true

theorem DrawFrame.nil (s : State) : DrawFrame [] s s := ⟨rfl, fun _ _ => rfl, .inl rfl, [], by simp⟩

theorem DrawFrame.read (a : Fin Config.memSize) (b : Byte) (s : State) :
    DrawFrame [(false, a, b)] s (s.log (.memRead a b)) :=
  ⟨rfl, fun _ _ => rfl, .inl rfl, [.memRead a b], rfl, rfl, rfl, by simp [Event.ofDraw]⟩

theorem DrawFrame.flip (px : Col) (py : Row) (s : State) : DrawFrame [] s (s.flipPixel px py) := by
  obtain ⟨-, hv, hf, ho⟩ := s.flipPixel_spec px py
  refine ⟨?_, fun r hr => ?_, ?_, flipEvents (s.pixel px py) px py, by rw [hf], ho, ?_, ?_⟩
  · conv => lhs; rw [hf]
    rw [hf]
  · rw [hv, if_neg (fun h => hr h.1)]
  · rw [hv]; cases s.pixel px py <;> simp
  · cases s.pixel px py <;> rfl
  · cases s.pixel px py <;> simp [flipEvents, Event.ofDraw]

theorem DrawFrame.append {acc acc' : List (Bool × Nat × Byte)} {s t u : State} (h : DrawFrame acc s t)
    (h' : DrawFrame acc' t u) : DrawFrame (acc ++ acc') s u := by
  obtain ⟨es, e1, e2, e3, e4⟩ := h.events
  obtain ⟨fs, f1, f2, f3, f4⟩ := h'.events
  refine ⟨?_, fun r hr => (h'.regs r hr).trans (h.regs r hr), ?_, es ++ fs, ?_, ?_, ?_, ?_⟩
  · conv => lhs; rw [h'.frame, h.frame]
  · rcases h'.flag with e | e
    · exact h.flag.imp e.trans e.trans
    · exact .inr e
  · rw [f1, e1, List.append_assoc]
  · rw [f2, e2, List.foldl_append]
  · rw [List.filterMap_append, e3, f3]
  · intro e he
    exact (List.mem_append.mp he).elim (e4 e) (f4 e)

/-! ### Which pixels were flipped -/

/-- From `s` to `t` exactly the listed pixels, each listed once, were flipped. -/
structure Drawn (ps : List (Col × Row)) (s t : State) : Prop where
  pixel : ∀ px py, t.pixel px py = if (px, py) ∈ ps then !s.pixel px py else s.pixel px py
  flag  : t.getV VF = if ∃ p ∈ ps, s.pixel p.1 p.2 = true then 1 else s.getV VF
  dirty : t.dirty = true ↔ s.dirty = true ∨ ∃ p ∈ ps, s.pixel p.1 p.2 = false
  marks : t.trace.count .dispMarkDirty =
    s.trace.count .dispMarkDirty + (ps.filter (fun p => !s.pixel p.1 p.2)).length

theorem Drawn.nil (s : State) : Drawn [] s s := ⟨fun _ _ => by simp, by simp, by simp, by simp⟩

theorem Drawn.read (a : Fin Config.memSize) (b : Byte) (s : State) : Drawn [] s (s.log (.memRead a b)) :=
  ⟨fun _ _ => by simp, by simp, by simp, by simp⟩

theorem Drawn.flip (px : Col) (py : Row) (s : State) : Drawn [(px, py)] s (s.flipPixel px py) := by
  obtain ⟨hp, hv, hf, -⟩ := s.flipPixel_spec px py
  refine ⟨fun qx qy => ?_, ?_, ?_, ?_⟩
  · rw [hp]; simp only [List.mem_singleton, Prod.mk.injEq]
    split
    · next h => rw [h.1, h.2]
    · rfl
  · simpa using hv VF
  · rw [hf]; cases h : s.pixel px py <;> simp [h]
  · rw [hf]; cases h : s.pixel px py <;> simp [flipEvents, h]

/-- Two draws over different pixels, one after the other. -/
theorem Drawn.append {ps qs : List (Col × Row)} {s t u : State} (h : Drawn ps s t) (h' : Drawn qs t u)
    (hd : ∀ p ∈ ps, p ∉ qs) : Drawn (ps ++ qs) s u := by
  have hq : ∀ q ∈ qs, t.pixel q.1 q.2 = s.pixel q.1 q.2 := fun q hq => by
    rw [h.pixel, if_neg (fun hp => hd _ hp hq)]
  have hex : ∀ b, (∃ p ∈ ps ++ qs, s.pixel p.1 p.2 = b) ↔
      (∃ p ∈ ps, s.pixel p.1 p.2 = b) ∨ ∃ q ∈ qs, t.pixel q.1 q.2 = b := fun b => by
    constructor
    · rintro ⟨p, hp, e⟩
      rcases List.mem_append.mp hp with hp | hp
      · exact .inl ⟨p, hp, e⟩
      · exact .inr ⟨p, hp, (hq p hp).trans e⟩
    · rintro (⟨p, hp, e⟩ | ⟨p, hp, e⟩)
      · exact ⟨p, List.mem_append_left _ hp, e⟩
      · exact ⟨p, List.mem_append_right _ hp, (hq p hp).symm.trans e⟩
  refine ⟨fun px py => ?_, ?_, ?_, ?_⟩
  · rw [h'.pixel, h.pixel]
    simp only [List.mem_append]
    by_cases hp : (px, py) ∈ ps <;> by_cases hq : (px, py) ∈ qs
    · exact (hd _ hp hq).elim
    · simp [hp, hq]
    · simp [hp, hq]
    · simp [hp, hq]
  · rw [h'.flag, h.flag]
    simp only [hex true]
    by_cases a : ∃ p ∈ ps, s.pixel p.1 p.2 = true <;> by_cases b : ∃ q ∈ qs, t.pixel q.1 q.2 = true <;>
      simp only [a, b, or_true, or_false, or_self, if_true, if_false]
  · rw [h'.dirty, h.dirty, hex false, or_assoc]
  · rw [h'.marks, h.marks, List.filter_append, List.length_append, Nat.add_assoc]
    congr 3
    exact List.filter_congr fun q hq' => by rw [hq q hq']

/-! ### Rows of a sprite -/

/-- The pixels under the set bits of one sprite byte, left to right. -/
def spriteRowPixels (vx vy : Byte) (r : Nat) (row : Byte) : List (Col × Row) :=
  ((List.range 8).filter (spriteBit row)).map (fun c => (wrapCol vx c, wrapRow vy r))

/-- The pixels under the set bits of `count` sprite rows from row `r` down. -/
def spritePixels (s : State) (vx vy : Byte) : Nat → Nat → List (Col × Row)
  | 0, _ => []
  | count + 1, r => spriteRowPixels vx vy r (s.byteAt (s.base + r)) ++ spritePixels s vx vy count (r + 1)

/-- The reads of `count` sprite rows from row `r` down (R70). -/
def spriteReads (s : State) : Nat → Nat → List (Bool × Nat × Byte)
  | 0, _ => []
  | count + 1, r => (false, s.base + r, s.byteAt (s.base + r)) :: spriteReads s count (r + 1)

theorem mem_spriteRowPixels {vx vy : Byte} {r : Nat} {row : Byte} {p : Col × Row} :
    p ∈ spriteRowPixels vx vy r row ↔ ∃ c < 8, spriteBit row c = true ∧ p = (wrapCol vx c, wrapRow vy r) := by
  simp only [spriteRowPixels, List.mem_map, List.mem_filter, List.mem_range]
  constructor
  · rintro ⟨c, ⟨h1, h2⟩, h3⟩; exact ⟨c, h1, h2, h3.symm⟩
  · rintro ⟨c, h1, h2, h3⟩; exact ⟨c, ⟨h1, h2⟩, h3.symm⟩

theorem mem_spritePixels {s : State} {vx vy : Byte} {count r : Nat} {p : Col × Row} :
    p ∈ spritePixels s vx vy count r ↔
      ∃ k, r ≤ k ∧ k < r + count ∧ p ∈ spriteRowPixels vx vy k (s.byteAt (s.base + k)) := by
  induction count generalizing r with
  | zero => simp only [spritePixels, List.not_mem_nil, false_iff]; rintro ⟨k, h1, h2, -⟩; omega
  | succ n ih =>
    rw [spritePixels, List.mem_append, ih]
    constructor
    · rintro (h | ⟨k, h1, h2, h3⟩)
      · exact ⟨r, by omega, by omega, h⟩
      · exact ⟨k, by omega, by omega, h3⟩
    · rintro ⟨k, h1, h2, h3⟩
      by_cases e : k = r
      · subst e; exact .inl h3
      · exact .inr ⟨k, by omega, by omega, h3⟩

theorem spritePixels_congr {s t : State} (hm : t.mem = s.mem) (hi : t.i = s.i) (vx vy : Byte) (count r : Nat) :
    spritePixels t vx vy count r = spritePixels s vx vy count r := by
  induction count generalizing r with
  | zero => rfl
  | succ n ih => simp only [spritePixels, ih, State.byteAt, State.base, hm, hi]

theorem spriteReads_congr {s t : State} (hm : t.mem = s.mem) (hi : t.i = s.i) (count r : Nat) :
    spriteReads t count r = spriteReads s count r := by
  induction count generalizing r with
  | zero => rfl
  | succ n ih => simp only [spriteReads, ih, State.byteAt, State.base, hm, hi]

theorem spriteReads_eq (s : State) (count r : Nat) :
    spriteReads s count r =
      (List.range count).map (fun k => (false, s.base + (r + k), s.byteAt (s.base + (r + k)))) := by
  induction count generalizing r with
  | zero => rfl
  | succ n ih =>
    rw [spriteReads, ih, List.range_succ_eq_map, List.map_cons, List.map_map]
    refine congrArg₂ _ rfl (List.map_congr_left fun k _ => ?_)
    simp only [Function.comp, Nat.succ_eq_add_one, show r + 1 + k = r + (k + 1) by omega]

theorem State.drawRow_frame (vx vy : Byte) (r : Nat) (row : Byte) (s : State) :
    DrawFrame [] s (s.drawRow vx vy r row) := by
  have key : ∀ (cs : List Nat) (s : State), DrawFrame [] s (cs.foldl (fun t c => t.drawBit vx vy r row c) s) := by
    intro cs
    induction cs with
    | nil => exact DrawFrame.nil
    | cons c cs ih =>
      intro s
      rw [List.foldl_cons]
      refine DrawFrame.append (acc := []) ?_ (ih _)
      unfold State.drawBit
      split
      · exact DrawFrame.flip _ _ s
      · exact DrawFrame.nil s
  exact key _ s

theorem State.drawRow_drawn (vx vy : Byte) (r : Nat) (row : Byte) (s : State) :
    Drawn (spriteRowPixels vx vy r row) s (s.drawRow vx vy r row) := by
  have key : ∀ n ≤ 8,
      Drawn (((List.range n).filter (spriteBit row)).map (fun c => (wrapCol vx c, wrapRow vy r))) s
        ((List.range n).foldl (fun t c => t.drawBit vx vy r row c) s) := by
    intro n hn
    induction n with
    | zero => exact Drawn.nil s
    | succ n ih =>
      rw [List.range_succ, List.foldl_append, List.filter_append, List.map_append]
      have h1 := ih (by omega)
      rw [List.foldl_cons, List.foldl_nil]
      unfold State.drawBit at h1 ⊢
      by_cases hb : spriteBit row n = true
      · simp only [hb, List.filter_cons_of_pos, List.filter_nil, List.map_cons, List.map_nil, if_true]
        refine h1.append (Drawn.flip _ _ _) ?_
        intro p hp hq
        rw [List.mem_singleton] at hq
        obtain ⟨c, hc, rfl⟩ := List.mem_map.mp hp
        have hc := List.mem_range.mp (List.mem_filter.mp hc).1
        have e := congrArg (fun q : Col × Row => q.1.val) hq
        simp only [wrapCol] at e
        omega
      · rw [List.filter_cons_of_neg hb]
        simpa [hb] using h1
  exact key 8 (Nat.le_refl 8)

/-- Sprite rows inside memory (R232 step 4): they answer, read one byte a row, and leave everything but the display, the
dirty flag and `VF` alone. At most 32 rows cover each pixel at most once, and flip exactly those under set bits. -/
theorem State.drawRows_ok (vx vy : Byte) (count r : Nat) (s : State) (h : s.base + r + count ≤ Config.memSize) :
    ∃ t, s.drawRows vx vy count r = .ok () t ∧ DrawFrame (spriteReads s count r) s t ∧
      (r + count ≤ 32 → Drawn (spritePixels s vx vy count r) s t) := by
  induction count generalizing r s with
  | zero => exact ⟨s, rfl, DrawFrame.nil s, fun _ => Drawn.nil s⟩
  | succ n ih =>
    have ha : s.base + r < Config.memSize := by omega
    have f1 := (DrawFrame.read ⟨s.base + r, ha⟩ (s.byteAt (s.base + r)) s).append
      (State.drawRow_frame vx vy r (s.byteAt (s.base + r)) (s.log _))
    have d1 := (Drawn.read ⟨s.base + r, ha⟩ (s.byteAt (s.base + r)) s).append
      (State.drawRow_drawn vx vy r (s.byteAt (s.base + r)) (s.log _)) (by simp)
    generalize hs : (s.log (.memRead ⟨s.base + r, ha⟩ (s.byteAt (s.base + r)))).drawRow vx vy r
      (s.byteAt (s.base + r)) = s1 at f1 d1
    have hm : s1.mem = s.mem := by rw [f1.frame]
    have hi : s1.i = s.i := by rw [f1.frame]
    have hb : s1.base = s.base := by simp only [State.base, hi]
    obtain ⟨t, ht, f2, d2⟩ := ih (r + 1) s1 (by rw [hb]; omega)
    rw [spritePixels_congr hm hi] at d2
    rw [spriteReads_congr hm hi] at f2
    refine ⟨t, ?_, f1.append f2, fun hn => d1.append (d2 (by omega)) ?_⟩
    · simp only [State.drawRows, State.memRead_lt s ha, hs, ht]
    · intro p hp hq
      rw [List.nil_append, mem_spriteRowPixels] at hp
      obtain ⟨c, -, -, rfl⟩ := hp
      obtain ⟨k, h1, h2, h3⟩ := mem_spritePixels.mp hq
      obtain ⟨c', -, -, h4⟩ := mem_spriteRowPixels.mp h3
      have e := congrArg (fun q : Col × Row => q.2.val) h4
      simp only [wrapRow] at e
      omega

theorem spriteRowPixels_nodup (vx vy : Byte) (r : Nat) (row : Byte) : (spriteRowPixels vx vy r row).Nodup := by
  refine List.Nodup.map_on (fun c hc d hd e => ?_) (List.nodup_range.filter _)
  have hc := List.mem_range.mp (List.mem_filter.mp hc).1
  have hd := List.mem_range.mp (List.mem_filter.mp hd).1
  have e := congrArg (fun q : Col × Row => q.1.val) e
  simp only [wrapCol] at e
  omega

theorem spritePixels_nodup (s : State) (vx vy : Byte) (count r : Nat) (hn : r + count ≤ 32) :
    (spritePixels s vx vy count r).Nodup := by
  induction count generalizing r with
  | zero => exact List.nodup_nil
  | succ n ih =>
    rw [spritePixels, List.nodup_append]
    refine ⟨spriteRowPixels_nodup _ _ _ _, ih (r + 1) (by omega), fun p hp q hq e => ?_⟩
    subst e
    obtain ⟨c, -, -, rfl⟩ := mem_spriteRowPixels.mp hp
    obtain ⟨k, h1, h2, h3⟩ := mem_spritePixels.mp hq
    obtain ⟨c', -, -, h4⟩ := mem_spriteRowPixels.mp h3
    have e := congrArg (fun q : Col × Row => q.2.val) h4
    simp only [wrapRow] at e
    omega

/-- The pixels of a whole sprite are those `SpriteCovers` describes. -/
theorem mem_spritePixels_iff_covers (s : State) (x y : Reg) (n : Nat) (px : Col) (py : Row) :
    (px, py) ∈ spritePixels s (s.getV x) (s.getV y) n 0 ↔ SpriteCovers s x y n px py := by
  rw [mem_spritePixels]
  constructor
  · rintro ⟨k, -, h2, h3⟩
    obtain ⟨c, hc, hb, e⟩ := mem_spriteRowPixels.mp h3
    rw [Prod.mk.injEq] at e
    exact ⟨k, by omega, c, hc, hb, congrArg Fin.val e.1, congrArg Fin.val e.2⟩
  · rintro ⟨k, hk, c, hc, hb, e1, e2⟩
    exact ⟨k, Nat.zero_le k, by omega,
      mem_spriteRowPixels.mpr ⟨c, hc, hb, Prod.ext (Fin.ext e1) (Fin.ext e2)⟩⟩

end Sys2Proof.Machine
end

