-- ==== Sys2Proof/Laws/PerInstr.lean ====
section
/-! SUPPORT. The statement made per instruction: the row of the opcode table at the instruction's place accepts its word
and builds its own constructor, so no encoding is missing from the table and none falls to a neighbour. -/

namespace Sys2Proof.Laws

/-! ### A row accepts the words of its format (R92) -/

theorem accepts_wordNNN {r : OpcodeRow} (value : Nat) (nnn : Addr12) (hm : r.mask = 0xF000#16)
    (hv : r.value.toNat = value) (h0 : value % 4096 = 0) :
    r.accepts (wordNNN value nnn) = true := by
  have := nnn.isLt
  rw [accepts_F000 hm, toNat_wordNNN _ (by omega), hv]; omega

theorem accepts_wordXNN {r : OpcodeRow} (value : Nat) (x : Reg) (nn : Byte) (hm : r.mask = 0xF000#16)
    (hv : r.value.toNat = value) (h0 : value % 4096 = 0) :
    r.accepts (wordXNN value x nn) = true := by
  have := nn.isLt; have := x.isLt
  rw [accepts_F000 hm, toNat_wordXNN _ _ (by omega), hv]; omega

theorem accepts_wordXYN {r : OpcodeRow} (value : Nat) (x y : Reg) (n : Nat) (hm : r.mask = 0xF000#16)
    (hv : r.value.toNat = value) (h0 : value % 4096 = 0) :
    r.accepts (wordXYN value x y n) = true := by
  have := y.isLt; have := x.isLt
  rw [accepts_F000 hm, toNat_wordXYN _ _ _ (by omega), hv]; omega

theorem accepts_wordXY {r : OpcodeRow} (value : Nat) (x y : Reg) (hm : r.mask = 0xF00F#16)
    (hv : r.value.toNat = value) (h0 : value % 4096 < 16) :
    r.accepts (wordXY value x y) = true := by
  have := y.isLt; have := x.isLt
  rw [accepts_F00F hm, toNat_wordXY _ _ (by omega), hv]; omega

theorem accepts_wordX {r : OpcodeRow} (value : Nat) (x : Reg) (hm : r.mask = 0xF0FF#16)
    (hv : r.value.toNat = value) (h0 : value % 4096 < 256) :
    r.accepts (wordX value x) = true := by
  have := x.isLt
  rw [accepts_F0FF hm, toNat_wordX _ (by omega), hv]; omega

end Sys2Proof.Laws

namespace Sys2Proof.Laws.MatchesItsRow

/-- The place of an instruction's row in R96, counted from 0. -/
def rowOf : Instr → Nat
  | .cls => 0 | .ret => 1 | .jp _ => 2 | .call _ => 3 | .seImm _ _ => 4 | .sneImm _ _ => 5 | .seReg _ _ => 6
  | .ldImm _ _ => 7 | .addImm _ _ => 8 | .ldReg _ _ => 9 | .or _ _ => 10 | .and _ _ => 11 | .xor _ _ => 12
  | .addReg _ _ => 13 | .sub _ _ => 14 | .shr _ _ => 15 | .subn _ _ => 16 | .shl _ _ => 17 | .sneReg _ _ => 18
  | .ldI _ => 19 | .jpV0 _ => 20 | .rnd _ _ => 21 | .drw _ _ _ => 22 | .skp _ => 23 | .sknp _ => 24
  | .ldVxDt _ => 25 | .ldVxK _ => 26 | .ldDtVx _ => 27 | .ldStVx _ => 28 | .addIVx _ => 29 | .ldFVx _ => 30
  | .ldBVx _ => 31 | .ldMemVx _ => 32 | .ldVxMem _ => 33

/-- The instruction's row accepts its word (R94), and whatever the row builds belongs to that row. -/
def Statement (i : Instr) : Prop :=
  ∃ r, opcodeTable[rowOf i]? = some r ∧ r.accepts (encode i) = true ∧ ∀ f, rowOf (r.build f) = rowOf i

theorem cls : Statement .cls := ⟨_, rfl, by decide, fun _ => rfl⟩
theorem ret : Statement .ret := ⟨_, rfl, by decide, fun _ => rfl⟩
theorem jp (nnn : Addr12) : Statement (.jp nnn) :=
  ⟨_, rfl, accepts_wordNNN 0x1000 nnn rfl rfl (by omega), fun _ => rfl⟩
theorem call (nnn : Addr12) : Statement (.call nnn) :=
  ⟨_, rfl, accepts_wordNNN 0x2000 nnn rfl rfl (by omega), fun _ => rfl⟩
theorem seImm (x : Reg) (nn : Byte) : Statement (.seImm x nn) :=
  ⟨_, rfl, accepts_wordXNN 0x3000 x nn rfl rfl (by omega), fun _ => rfl⟩
theorem sneImm (x : Reg) (nn : Byte) : Statement (.sneImm x nn) :=
  ⟨_, rfl, accepts_wordXNN 0x4000 x nn rfl rfl (by omega), fun _ => rfl⟩
theorem seReg (x y : Reg) : Statement (.seReg x y) :=
  ⟨_, rfl, accepts_wordXY 0x5000 x y rfl rfl (by omega), fun _ => rfl⟩
theorem ldImm (x : Reg) (nn : Byte) : Statement (.ldImm x nn) :=
  ⟨_, rfl, accepts_wordXNN 0x6000 x nn rfl rfl (by omega), fun _ => rfl⟩
theorem addImm (x : Reg) (nn : Byte) : Statement (.addImm x nn) :=
  ⟨_, rfl, accepts_wordXNN 0x7000 x nn rfl rfl (by omega), fun _ => rfl⟩
theorem ldReg (x y : Reg) : Statement (.ldReg x y) :=
  ⟨_, rfl, accepts_wordXY 0x8000 x y rfl rfl (by omega), fun _ => rfl⟩
theorem or (x y : Reg) : Statement (.or x y) :=
  ⟨_, rfl, accepts_wordXY 0x8001 x y rfl rfl (by omega), fun _ => rfl⟩
theorem and (x y : Reg) : Statement (.and x y) :=
  ⟨_, rfl, accepts_wordXY 0x8002 x y rfl rfl (by omega), fun _ => rfl⟩
theorem xor (x y : Reg) : Statement (.xor x y) :=
  ⟨_, rfl, accepts_wordXY 0x8003 x y rfl rfl (by omega), fun _ => rfl⟩
theorem addReg (x y : Reg) : Statement (.addReg x y) :=
  ⟨_, rfl, accepts_wordXY 0x8004 x y rfl rfl (by omega), fun _ => rfl⟩
theorem sub (x y : Reg) : Statement (.sub x y) :=
  ⟨_, rfl, accepts_wordXY 0x8005 x y rfl rfl (by omega), fun _ => rfl⟩
theorem shr (x y : Reg) : Statement (.shr x y) :=
  ⟨_, rfl, accepts_wordXY 0x8006 x y rfl rfl (by omega), fun _ => rfl⟩
theorem subn (x y : Reg) : Statement (.subn x y) :=
  ⟨_, rfl, accepts_wordXY 0x8007 x y rfl rfl (by omega), fun _ => rfl⟩
theorem shl (x y : Reg) : Statement (.shl x y) :=
  ⟨_, rfl, accepts_wordXY 0x800E x y rfl rfl (by omega), fun _ => rfl⟩
theorem sneReg (x y : Reg) : Statement (.sneReg x y) :=
  ⟨_, rfl, accepts_wordXY 0x9000 x y rfl rfl (by omega), fun _ => rfl⟩
theorem ldI (nnn : Addr12) : Statement (.ldI nnn) :=
  ⟨_, rfl, accepts_wordNNN 0xA000 nnn rfl rfl (by omega), fun _ => rfl⟩
theorem jpV0 (nnn : Addr12) : Statement (.jpV0 nnn) :=
  ⟨_, rfl, accepts_wordNNN 0xB000 nnn rfl rfl (by omega), fun _ => rfl⟩
theorem rnd (x : Reg) (nn : Byte) : Statement (.rnd x nn) :=
  ⟨_, rfl, accepts_wordXNN 0xC000 x nn rfl rfl (by omega), fun _ => rfl⟩
theorem drw (x y : Reg) (n : Nat) : Statement (.drw x y n) :=
  ⟨_, rfl, accepts_wordXYN 0xD000 x y n rfl rfl (by omega), fun _ => rfl⟩
theorem skp (x : Reg) : Statement (.skp x) :=
  ⟨_, rfl, accepts_wordX 0xE09E x rfl rfl (by omega), fun _ => rfl⟩
theorem sknp (x : Reg) : Statement (.sknp x) :=
  ⟨_, rfl, accepts_wordX 0xE0A1 x rfl rfl (by omega), fun _ => rfl⟩
theorem ldVxDt (x : Reg) : Statement (.ldVxDt x) :=
  ⟨_, rfl, accepts_wordX 0xF007 x rfl rfl (by omega), fun _ => rfl⟩
theorem ldVxK (x : Reg) : Statement (.ldVxK x) :=
  ⟨_, rfl, accepts_wordX 0xF00A x rfl rfl (by omega), fun _ => rfl⟩
theorem ldDtVx (x : Reg) : Statement (.ldDtVx x) :=
  ⟨_, rfl, accepts_wordX 0xF015 x rfl rfl (by omega), fun _ => rfl⟩
theorem ldStVx (x : Reg) : Statement (.ldStVx x) :=
  ⟨_, rfl, accepts_wordX 0xF018 x rfl rfl (by omega), fun _ => rfl⟩
theorem addIVx (x : Reg) : Statement (.addIVx x) :=
  ⟨_, rfl, accepts_wordX 0xF01E x rfl rfl (by omega), fun _ => rfl⟩
theorem ldFVx (x : Reg) : Statement (.ldFVx x) :=
  ⟨_, rfl, accepts_wordX 0xF029 x rfl rfl (by omega), fun _ => rfl⟩
theorem ldBVx (x : Reg) : Statement (.ldBVx x) :=
  ⟨_, rfl, accepts_wordX 0xF033 x rfl rfl (by omega), fun _ => rfl⟩
theorem ldMemVx (x : Reg) : Statement (.ldMemVx x) :=
  ⟨_, rfl, accepts_wordX 0xF055 x rfl rfl (by omega), fun _ => rfl⟩
theorem ldVxMem (x : Reg) : Statement (.ldVxMem x) :=
  ⟨_, rfl, accepts_wordX 0xF065 x rfl rfl (by omega), fun _ => rfl⟩

end Sys2Proof.Laws.MatchesItsRow
end

