-- ==== Sys2Proof/Tests/Slice0.lean ====
section
/-! SUPPORT. Tests. Expected values are those of spec/95_test_vectors.md, named in each comment by the vector's id, or
of the rule named there; then a witness for the hypotheses of every obligation that has some. -/

open Sys2Proof Sys2Proof.Machine

namespace Sys2Proof.Tests

/-! ### Well-formedness -/

theorem test_wellFormed_refuses_sixteen_rows : ¬ (Instr.drw 0 0 16).WellFormed := by decide
theorem test_wellFormed_accepts_fifteen_rows : (Instr.drw 15 15 15).WellFormed := by decide

/-! ### Decoding: one word of every row, written out from its pattern in R96 with fields as in R91 -/

theorem test_decode_cls : decodeWord 0b0000000011100000 = .ok .cls := by decide
theorem test_decode_ret : decodeWord 0b0000000011101110 = .ok .ret := by decide
theorem test_decode_jp : decodeWord 0b0001101010111100 = .ok (.jp 0xABC) := by decide
theorem test_decode_call : decodeWord 0b0010001100010000 = .ok (.call 0x310) := by decide
theorem test_decode_seImm : decodeWord 0b0011001100101010 = .ok (.seImm 3 0x2A) := by decide
theorem test_decode_sneImm : decodeWord 0b0100001100101010 = .ok (.sneImm 3 0x2A) := by decide
theorem test_decode_seReg : decodeWord 0b0101000100100000 = .ok (.seReg 1 2) := by decide
theorem test_decode_ldImm : decodeWord 0b0110101001111111 = .ok (.ldImm 10 0x7F) := by decide
theorem test_decode_addImm : decodeWord 0b0111001000000010 = .ok (.addImm 2 0x02) := by decide
theorem test_decode_ldReg : decodeWord 0b1000101010110000 = .ok (.ldReg 10 11) := by decide
theorem test_decode_or : decodeWord 0b1000000000010001 = .ok (.or 0 1) := by decide
theorem test_decode_and : decodeWord 0b1000000000010010 = .ok (.and 0 1) := by decide
theorem test_decode_xor : decodeWord 0b1000000000010011 = .ok (.xor 0 1) := by decide
theorem test_decode_addReg : decodeWord 0b1000101010110100 = .ok (.addReg 10 11) := by decide
theorem test_decode_sub : decodeWord 0b1000000011110101 = .ok (.sub 0 15) := by decide
theorem test_decode_shr : decodeWord 0b1000000100100110 = .ok (.shr 1 2) := by decide
theorem test_decode_subn : decodeWord 0b1000000000010111 = .ok (.subn 0 1) := by decide
theorem test_decode_shl : decodeWord 0b1000111111111110 = .ok (.shl 15 15) := by decide
theorem test_decode_sneReg : decodeWord 0b1001000100100000 = .ok (.sneReg 1 2) := by decide
theorem test_decode_ldI : decodeWord 0b1010001011110000 = .ok (.ldI 0x2F0) := by decide
theorem test_decode_jpV0 : decodeWord 0b1011001100000000 = .ok (.jpV0 0x300) := by decide
theorem test_decode_rnd : decodeWord 0b1100000100001111 = .ok (.rnd 1 0x0F) := by decide
theorem test_decode_drw : decodeWord 0b1101000100101111 = .ok (.drw 1 2 15) := by decide
theorem test_decode_skp : decodeWord 0b1110000110011110 = .ok (.skp 1) := by decide
theorem test_decode_sknp : decodeWord 0b1110000110100001 = .ok (.sknp 1) := by decide
theorem test_decode_ldVxDt : decodeWord 0b1111001100000111 = .ok (.ldVxDt 3) := by decide
theorem test_decode_ldVxK : decodeWord 0b1111001100001010 = .ok (.ldVxK 3) := by decide
theorem test_decode_ldDtVx : decodeWord 0b1111001000010101 = .ok (.ldDtVx 2) := by decide
theorem test_decode_ldStVx : decodeWord 0b1111001000011000 = .ok (.ldStVx 2) := by decide
theorem test_decode_addIVx : decodeWord 0b1111001000011110 = .ok (.addIVx 2) := by decide
theorem test_decode_ldFVx : decodeWord 0b1111001000101001 = .ok (.ldFVx 2) := by decide
theorem test_decode_ldBVx : decodeWord 0b1111001000110011 = .ok (.ldBVx 2) := by decide
theorem test_decode_ldMemVx : decodeWord 0b1111001001010101 = .ok (.ldMemVx 2) := by decide
theorem test_decode_ldVxMem : decodeWord 0b1111001001100101 = .ok (.ldVxMem 2) := by decide

/-- IL3 to IL7: the neighbours of legal words are rejected by name. -/
theorem test_decode_rejects_neighbours :
    [0x00E1, 0x00FE, 0x5001, 0x9001, 0x8008, 0xE000, 0xF000, 0xF0FF, 0xF01F].all
      (fun w => decodeWord w == .error (.unimplementedInstruction w)) = true := by decide

/-- R64, R90: the high byte comes first; one byte is no instruction. -/
theorem test_decode_bytes :
    decode [0x12, 0x34, 0x56] = .ok (.jp 0x234, [0x56]) ∧ decode [0x12] = .error .truncated := by decide

theorem test_decodeTableWord :
    decodeTableWord 16 0x8014 = some (.addReg 0 1) ∧ decodeTableWord 16 0x800F = none := by decide

/-! ### One cycle -/

/-- A running block with an opcode at `pc` (0x200 unless the state says otherwise), in a step in which nothing
arrives. -/
def at_ (op : Word) (s : State) : State :=
  { s with mode := .running, mem := Memory.load s.mem s.pc.toNat (wordBytes op), inputs := [Input.quiet] }

/-- General registers written in a state. -/
def regs (vs : List (Reg × Byte)) (s : State) : State := vs.foldl (fun t p => t.setV p.1 p.2) s

/-- Bytes placed in a state's memory. -/
def bytes (a : Nat) (bs : List Byte) (s : State) : State := { s with mem := Memory.load s.mem a bs }

/-- Pixels set in a state's display. -/
def lit (ps : List (Col × Row)) (s : State) : State := ps.foldl (fun t p => { t with fb := Display.set t.fb p.1 p.2 true }) s

/-- The step answers a next state, and it is as `p` says. -/
def goes (s : State) (p : State → Bool) : Bool :=
  match step s with
  | .next t => p t
  | .fault _ => false
  | .refused _ => false

/-- The registers listed hold what is listed. -/
def holds (vs : List (Reg × Byte)) (t : State) : Bool := vs.all (fun p => t.getV p.1 == p.2)

/-- The bytes from an address up are those listed. -/
def stores (a : Nat) (bs : List Byte) (t : State) : Bool := (List.range bs.length).map (fun k => t.byteAt (a + k)) == bs

/-- The pixels listed are 0. -/
def dark (ps : List (Col × Row)) (t : State) : Bool := ps.all (fun p => !t.pixel p.1 p.2)

/-- A fault has been recorded. -/
def faults (cause : BitVec 3) (info : Word) (t : State) : Bool := t.mode == .faulted && t.cause == cause && t.info == info

/-- DK1 -/
theorem test_cls : goes (at_ 0x00E0 (lit [(0, 0), (63, 31), (5, 7)] (regs [(15, 0x55)] .reset)))
    (fun t => dark [(0, 0), (63, 31), (5, 7)] t && holds [(15, 0x55)] t && t.pc == 0x202) = true := by decide
/-- CF5 -/
theorem test_ret : goes (at_ 0x00EE { State.reset with pc := 0x300, stack := [0x200] })
    (fun t => t.pc == 0x202 && t.stack == []) = true := by decide
/-- CF6 -/
theorem test_ret_underflow : goes (at_ 0x00EE { State.reset with pc := 0x300 })
    (fun t => faults 4 0 t && t.pc == 0x300) = true := by decide
/-- CF1 -/
theorem test_jp : goes (at_ 0x1ABC .reset) (fun t => t.pc == 0xABC) = true := by decide
/-- CF3 -/
theorem test_call : goes (at_ 0x2300 .reset) (fun t => t.pc == 0x300 && t.stack == [0x200]) = true := by decide
/-- CF4 -/
theorem test_call_overflow :
    goes (at_ 0x2300 { State.reset with pc := 0x250, stack := List.replicate 16 0x200, dt := 5, st := 5 })
      (fun t => faults 3 0x250 t && t.sp == 16 && t.dt == 5 && t.st == 5 && t.trace.all (· != .play)) = true := by
  decide
/-- CF7, CF8 -/
theorem test_seImm : goes (at_ 0x3342 (regs [(3, 0x42)] .reset)) (fun t => t.pc == 0x204) = true ∧
    goes (at_ 0x3343 (regs [(3, 0x42)] .reset)) (fun t => t.pc == 0x202) = true := by decide
/-- CF9, CF10 -/
theorem test_sneImm : goes (at_ 0x4342 (regs [(3, 0x42)] .reset)) (fun t => t.pc == 0x202) = true ∧
    goes (at_ 0x4343 (regs [(3, 0x42)] .reset)) (fun t => t.pc == 0x204) = true := by decide
/-- CF11, CF12 -/
theorem test_seReg : goes (at_ 0x5120 (regs [(1, 7), (2, 7)] .reset)) (fun t => t.pc == 0x204) = true ∧
    goes (at_ 0x5120 (regs [(1, 7), (2, 8)] .reset)) (fun t => t.pc == 0x202) = true := by decide
/-- CF14, CF15 -/
theorem test_sneReg : goes (at_ 0x9120 (regs [(1, 7), (2, 7)] .reset)) (fun t => t.pc == 0x202) = true ∧
    goes (at_ 0x9120 (regs [(1, 7), (2, 8)] .reset)) (fun t => t.pc == 0x204) = true := by decide
/-- CF18 -/
theorem test_jpV0 : goes (at_ 0xBFFF (regs [(0, 0xFF)] .reset)) (fun t => t.pc == 0x10FE && t.mode == .running) = true := by
  decide
/-- CF22: an odd address is a legal one. -/
theorem test_ldImm_odd : goes (at_ 0x6A55 { State.reset with pc := 0x201 })
    (fun t => holds [(10, 0x55)] t && t.pc == 0x203) = true := by decide
/-- AL2 -/
theorem test_addImm : goes (at_ 0x7102 (regs [(1, 0xFF), (15, 0x55)] .reset))
    (fun t => holds [(1, 0x01), (15, 0x55)] t) = true := by decide
/-- AL3 -/
theorem test_ldReg : goes (at_ 0x8120 (regs [(1, 0x01), (2, 0x99), (15, 0x55)] .reset))
    (fun t => holds [(1, 0x99), (2, 0x99), (15, 0x55)] t) = true := by decide
/-- AL4 -/
theorem test_or : goes (at_ 0x8121 (regs [(1, 0xF0), (2, 0x0F), (15, 0x55)] .reset))
    (fun t => holds [(1, 0xFF), (15, 0x55)] t) = true := by decide
/-- AL5 -/
theorem test_and : goes (at_ 0x8122 (regs [(1, 0xF3), (2, 0x3F), (15, 0x55)] .reset))
    (fun t => holds [(1, 0x33), (15, 0x55)] t) = true := by decide
/-- AL6 -/
theorem test_xor : goes (at_ 0x8123 (regs [(1, 0xF3), (2, 0x3F), (15, 0x55)] .reset))
    (fun t => holds [(1, 0xCC), (15, 0x55)] t) = true := by decide
/-- S1 -/
theorem test_addReg_carry : goes (at_ 0x8014 (regs [(0, 0xFF), (1, 0x01)] .reset))
    (fun t => holds [(0, 0x00), (15, 0x01)] t) = true := by decide
/-- AL10, AL12 -/
theorem test_addReg_vf : goes (at_ 0x8F14 (regs [(15, 0xFF), (1, 0x01)] .reset)) (holds [(15, 0x00)]) = true ∧
    goes (at_ 0x80F4 (regs [(15, 0xFF), (0, 0x01)] .reset)) (holds [(0, 0x00), (15, 0x01)]) = true := by decide
/-- AL14, AL15 -/
theorem test_sub : goes (at_ 0x8015 (regs [(0, 3), (1, 5)] .reset)) (holds [(0, 0xFE), (15, 0)]) = true ∧
    goes (at_ 0x8015 (regs [(0, 5), (1, 5)] .reset)) (holds [(0, 0), (15, 0)]) = true := by decide
/-- AL17, AL18 -/
theorem test_sub_vf : goes (at_ 0x8F15 (regs [(15, 5), (1, 3)] .reset)) (holds [(15, 2)]) = true ∧
    goes (at_ 0x80F5 (regs [(0, 5), (15, 3)] .reset)) (holds [(0, 2), (15, 1)]) = true := by decide
/-- AL19 -/
theorem test_shr : goes (at_ 0x8126 (regs [(1, 0x04), (2, 0xFF)] .reset))
    (holds [(1, 0x02), (2, 0xFF), (15, 0)]) = true := by decide
/-- S3, AL21 -/
theorem test_shr_flag : goes (at_ 0x8006 (regs [(0, 0x03)] .reset)) (holds [(0, 0x01), (15, 1)]) = true ∧
    goes (at_ 0x8F06 (regs [(15, 0x05)] .reset)) (holds [(15, 0x02)]) = true := by decide
/-- AL22, AL23 -/
theorem test_subn : goes (at_ 0x8017 (regs [(0, 3), (1, 5)] .reset)) (holds [(0, 2), (15, 1)]) = true ∧
    goes (at_ 0x8017 (regs [(0, 5), (1, 3)] .reset)) (holds [(0, 0xFE), (15, 0)]) = true := by decide
/-- S5, AL27 -/
theorem test_shl : goes (at_ 0x800E (regs [(0, 0x81)] .reset)) (holds [(0, 0x02), (15, 1)]) = true ∧
    goes (at_ 0x8FFE (regs [(15, 0x81)] .reset)) (holds [(15, 0x02)]) = true := by decide
/-- IM1 -/
theorem test_ldI : goes (at_ 0xA123 .reset) (fun t => t.i == 0x123 && t.pc == 0x202) = true := by decide
/-- IM2, IM3 -/
theorem test_addIVx :
    goes (at_ 0xF01E (regs [(0, 1), (15, 0x55)] { State.reset with i := 0xFFF }))
      (fun t => t.i == 0x1000 && holds [(15, 0x55)] t && t.mode == .running) = true ∧
    goes (at_ 0xF01E (regs [(0, 2)] { State.reset with i := 0xFFFF })) (fun t => t.i == 1) = true := by decide
/-- IM6 -/
theorem test_ldFVx : goes (at_ 0xF029 (regs [(0, 0xFF)] .reset)) (fun t => t.i == 0x4FB) = true := by decide
/-- S6 -/
theorem test_ldBVx : goes (at_ 0xF033 (regs [(0, 0x7B)] { State.reset with i := 0x300 }))
    (fun t => stores 0x300 [1, 2, 3] t && t.i == 0x300 && t.mem.wf) = true := by decide
/-- IM12 -/
theorem test_ldBVx_fault : goes (at_ 0xF033 (regs [(0, 255)] { State.reset with i := 0xFFE }))
    (fun t => faults 2 0x1000 t && stores 0xFFE [0, 0] t) = true := by decide
/-- IM14 -/
theorem test_ldMemVx : goes (at_ 0xF255 (regs [(0, 1), (1, 2), (2, 3), (3, 4)] { State.reset with i := 0x300 }))
    (fun t => stores 0x300 [1, 2, 3, 0] t && t.i == 0x300) = true := by decide
/-- IM16 -/
theorem test_ldMemVx_fault : goes (at_ 0xF155 (regs [(0, 0xAB), (1, 0xCD)] { State.reset with i := 0xFFF }))
    (fun t => faults 2 0x1000 t && stores 0xFFF [0] t) = true := by decide
/-- IM17 -/
theorem test_ldVxMem :
    goes (at_ 0xF265 (regs [(3, 0x99)] (bytes 0x300 [0x11, 0x22, 0x33, 0x44] { State.reset with i := 0x300 })))
      (fun t => holds [(0, 0x11), (1, 0x22), (2, 0x33), (3, 0x99)] t && t.i == 0x300) = true := by decide
/-- IM19: the recorded address is `I` itself. -/
theorem test_ldVxMem_fault : goes (at_ 0xF065 { State.reset with i := 0xFFFF }) (faults 2 0xFFFF) = true := by
  decide
/-- TR2: under the mask 0 the byte drawn is of no consequence. -/
theorem test_rnd : ∃ t, step (at_ 0xC100 (regs [(1, 0xFF)] .reset)) = .next t ∧ t.getV 1 = 0 ∧ t.pc = 0x202 :=
  ⟨_, rfl, BitVec.and_zero, rfl⟩
/-- TR5 -/
theorem test_ldVxDt : goes (at_ 0xF307 { State.reset with dt := 5 }) (fun t => holds [(3, 5)] t && t.dt == 4) = true := by
  decide
/-- TR7, TR16 -/
theorem test_ldDtVx : goes (at_ 0xF015 (regs [(0, 3)] .reset)) (fun t => t.dt == 2) = true ∧
    goes (at_ 0xF015 (regs [(0, 1)] .reset)) (fun t => t.dt == 0) = true := by decide
/-- TR9, TR10 -/
theorem test_ldStVx : goes (at_ 0xF018 (regs [(0, 1)] .reset)) (fun t => t.st == 0 && t.trace.count .play == 1) = true ∧
    goes (at_ 0xF018 { State.reset with st := 9 }) (fun t => t.st == 0 && t.trace.count .play == 0) = true := by
  decide
/-- DK2: the draw wraps from the last column to the first. -/
theorem test_drw_wrap : goes (at_ 0xD011 (regs [(0, 63)] (bytes 0x300 [0xC0] { State.reset with i := 0x300 })))
    (fun t => t.pixel 63 0 && t.pixel 0 0 && dark [(1, 0), (62, 0), (63, 1)] t && holds [(15, 0)] t &&
      t.trace.count .dispMarkDirty == 2) = true := by decide
/-- DK5, DK7 -/
theorem test_drw_collision :
    goes (at_ 0xD221 (bytes 0x300 [0xC0] (lit [(0, 0)] { State.reset with i := 0x300 })))
      (fun t => t.pixel 1 0 && dark [(0, 0), (2, 0)] t && holds [(15, 1)] t && t.trace.count .dispMarkDirty == 1) = true ∧
    goes (at_ 0xDF01 (bytes 0x300 [0x80] (regs [(15, 5), (0, 3)] { State.reset with i := 0x300 })))
      (fun t => t.pixel 5 3 && dark [(0, 3), (3, 5)] t && holds [(15, 0)] t) = true := by decide
/-- DK13, DK14, for whichever answer the keypad gives to the first query about key 5. -/
theorem test_skp : ∃ t, exec (.skp 1) (regs [(1, 5)] .reset) = .next t ∧
    t.pc = if Config.keyDown 0 5 then 0x204 else 0x202 :=
  ⟨_, rfl, show (State.skipIf (Config.keyDown 0 5) _).pc = _ by cases Config.keyDown 0 5 <;> rfl⟩
/-- DK15, DK16 -/
theorem test_sknp : ∃ t, exec (.sknp 1) (regs [(1, 5)] .reset) = .next t ∧
    t.pc = if Config.keyDown 0 5 then 0x202 else 0x204 :=
  ⟨_, rfl, show (State.skipIf (!Config.keyDown 0 5) _).pc = _ by cases Config.keyDown 0 5 <;> rfl⟩
/-- DK18, the wait: no tick, no sync, `pc` stays. -/
theorem test_ldVxK_waits : goes (at_ 0xF30A { State.reset with dt := 4, st := 2 })
    (fun t => t.mode == .awaitingKey 3 && t.pc == 0x200 && t.dt == 4 && t.st == 2 &&
      t.trace.all (fun e => e != .play && e != .sync)) = true := by decide
/-- DK18, the delivery of code 7. -/
theorem test_ldVxK_completes :
    goes { State.reset with mode := .awaitingKey 3, dt := 4, st := 2, inputs := [⟨some (.key 7), none⟩] }
      (fun t => t.mode == .running && holds [(3, 7)] t && t.pc == 0x202 && t.dt == 3 && t.st == 1 &&
        t.trace == [.keyDelivered 7, .play, .sync]) = true := by decide

/-! ### Faults and the stop check -/

/-- IL1, TR14: no tick, no sync. -/
theorem test_illegal : goes (at_ 0xFFFF { State.reset with dt := 5, st := 3 })
    (fun t => faults 1 0xFFFF t && t.pc == 0x200 && t.dt == 5 && t.st == 3 &&
      t.trace.all (fun e => e != .play && e != .sync)) = true := by decide
/-- CF21 -/
theorem test_fetch_at_the_last_byte : goes (bytes 0xFFF [0x60] { State.reset with mode := .running, pc := 0xFFF, inputs := [Input.quiet] })
    (fun t => faults 2 0x1000 t && t.pc == 0xFFF) = true := by decide
/-- CF18, the next cycle. -/
theorem test_fetch_outside : goes { State.reset with mode := .running, pc := 0x10FE, inputs := [Input.quiet] } (faults 2 0x10FE) = true := by
  decide
/-- TR15 -/
theorem test_stop : goes { at_ 0x6011 State.reset with dt := 5, st := 3, stopReq := true }
    (fun t => t.mode == .stopped && t.pc == 0x200 && holds [(0, 0)] t && t.dt == 5 && t.st == 3 && t.trace == []) =
    true := by decide
/-- R142: a reset after the first write of an `Fx55` leaves that byte written and the block reset. -/
theorem test_reset_inside_a_store :
    goes { at_ 0xF155 (regs [(0, 0xAB), (1, 0xCD)] { State.reset with i := 0x300 }) with inputs := [⟨none, some 3⟩] }
      (fun t => t.mode == .idle && t.i == 0 && holds [(0, 0), (1, 0)] t && stores 0x300 [0xAB, 0] t) = true := by
  decide
/-- R293: the host's bytes and its picture are taken in `Idle`, the later of two bytes for one address stays, and the
memory is in canonical form. R131: while the block runs neither is. -/
theorem test_host_loads :
    goes { State.reset with inputs := [⟨some (.hostFill [(0x200, 9), (0xFFF, 7), (0x200, 0)]), none⟩] }
      (fun t => stores 0x200 [0, 0] t && stores 0xFFF [7] t && t.mem.wf && t.mode == .idle) = true ∧
    goes { at_ 0x6001 State.reset with inputs := [⟨some (.hostFill [(0x300, 9)]), none⟩] }
      (fun t => stores 0x300 [0] t && t.pc == 0x202) = true := by decide
/-- R295: after a fault the host gives `reset`, reloads memory and gives `start`, and the reloaded program runs. -/
theorem test_run_again :
    goes { State.reset with mode := .faulted, cause := 1, pc := 0x300, inputs := [⟨none, some 0⟩] } (fun t =>
      goes { t with inputs := [⟨some (.hostFill [(0x200, 0x6A), (0x201, 0x7F)]), none⟩] } (fun u =>
      goes { u with inputs := [⟨some .start, none⟩] } (fun w =>
      goes { w with inputs := [Input.quiet] } (fun z => holds [(10, 0x7F)] z && z.pc == 0x202 && z.cause == 0)))) =
        true := by decide
/-- `withFetchWord` after reset: the next step runs the word. -/
theorem test_withFetchWord : goes (State.reset.withFetchWord 16 0x6A7F) (holds [(10, 0x7F)]) = true := by decide

/-! ### Witnesses: for every obligation with hypotheses, a state and operands that meet all of them together, clause by
clause and at boundary values -/

theorem witness_DecodeOfEncodeGivesTheInstructionBack :
    (Instr.drw 15 15 15).WellFormed ∧ (Instr.drw 0 0 0).WellFormed := by decide
theorem witness_EncodeOfDecodeGivesTheWordBack : decodeWord 0x8AB6 = .ok (.shr 10 11) := by decide
/-- Both sides of the equivalence are met, at the edges of the list. -/
theorem witness_IllegalOpcodesAreExactlyThoseListed :
    decodeWord 0x00ED = .error (.unimplementedInstruction 0x00ED) ∧
    decodeWord 0xF066 = .error (.unimplementedInstruction 0xF066) ∧ decodeWord 0xF065 = .ok (.ldVxMem 0) := by decide

/-- The last fetchable address. -/
def lastSlot : State := at_ 0x6001 { State.reset with pc := 0xFFE }
theorem witness_StepRunsTheDecodedInstruction :
    lastSlot.Fetchable ∧ lastSlot.Ready ∧ lastSlot.Quiet ∧
      decode [lastSlot.byteAt lastSlot.pc.toNat, lastSlot.byteAt (lastSlot.pc.toNat + 1)] = .ok (.ldImm 0 1, []) := by
  decide
theorem witness_StepRunsTheDecodedInstruction_exec (h : lastSlot.Fetchable) :
    ∃ t, exec (.ldImm 0 1) (lastSlot.dropInput.afterFetch h) = .next t := ⟨_, rfl⟩
/-- The three clauses at their boundaries: 4094, 4095, 4096. -/
theorem witness_FetchIsBigEndianAndChecked :
    (∃ t, lastSlot.fetch16 4094 = .ok 0x6001 t) ∧ (∃ t, lastSlot.fetch16 4095 = .raised (.memoryFault 4096) t) ∧
      (∃ t, lastSlot.fetch16 4096 = .raised (.memoryFault 4096) t) := ⟨⟨_, rfl⟩, ⟨_, rfl⟩, ⟨_, rfl⟩⟩
/-- Both values of the recorded address. -/
theorem witness_FetchOutsideMemoryFaults :
    (let s := { State.reset with mode := .running, pc := 0xFFF, inputs := [Input.quiet] }; s.Ready ∧ s.Quiet ∧ ¬ s.Fetchable) ∧
    (let s := { State.reset with mode := .running, pc := 0x1000, inputs := [Input.quiet] }; s.Ready ∧ s.Quiet ∧ ¬ s.Fetchable) := by decide
theorem witness_IllegalOpcodeIsAFatalFault :
    (at_ 0xFFFF .reset).Ready ∧ (at_ 0xFFFF .reset).Quiet ∧ (at_ 0xFFFF .reset).Fetchable ∧
      ∀ r ∈ opcodeTable, r.accepts (at_ 0xFFFF .reset).opcodeAtPc = false := by decide
theorem witness_StopCheckComesBeforeTheFetch :
    let s := { State.reset with mode := .running, stopReq := true, inputs := [Input.quiet] }
    s.mode = .running ∧ s.stopReq = true ∧ s.Quiet := by decide
theorem witness_NoCycleOutsideRunning :
    let s := { State.reset with inputs := [Input.quiet] }
    s.mode ≠ .running ∧ s.Quiet := by decide
/-- The picture of the witness below: every pixel set. -/
def allLit : Display := Vector.replicate 64 (Vector.replicate 32 true)
/-- Each arrival, in `Idle` and outside it; the cells at both ends of memory, and one of them twice. -/
theorem witness_StartAndLoadingActInIdleOnly :
    let cells : List (Fin Config.memSize × Byte) := [(0, 1), (4095, 2), (0, 3)]
    let s := { State.reset with inputs := [⟨some .start, none⟩] }
    let t := { State.reset with inputs := [⟨some (.hostFill cells), none⟩] }
    let u := { State.reset with inputs := [⟨some (.hostPicture allLit true), none⟩] }
    let w := { t with mode := .faulted, cause := 1 }
    (s.inputs = ⟨some .start, none⟩ :: [] ∧ s.mode = .idle) ∧
    (t.inputs = ⟨some (.hostFill cells), none⟩ :: [] ∧ t.mode = .idle ∧ byteAfterFill cells 0 9 = 3 ∧
      byteAfterFill cells 4095 9 = 2 ∧ byteAfterFill cells 1 9 = 9) ∧
    (u.inputs = ⟨some (.hostPicture allLit true), none⟩ :: [] ∧ u.mode = .idle) ∧
    (w.inputs = ⟨some (.hostFill cells), none⟩ :: [] ∧ w.mode ≠ .idle ∧ Arrival.hostFill cells ≠ .closed ∧
      ∀ code, Arrival.hostFill cells ≠ .key code) :=
  ⟨⟨rfl, rfl⟩, ⟨rfl, rfl, rfl, rfl, rfl⟩, ⟨rfl, rfl⟩, rfl, by decide, by simp, by simp⟩
/-- A step after which the mode is `Idle`, and one after which it is not. -/
theorem witness_ClosedLatchesAndCutsNothing :
    (∃ t, step { State.reset with inputs := [Input.quiet] } = .next t ∧ t.mode = .idle) ∧
    (∃ t, step { at_ 0x6001 State.reset with inputs := [Input.quiet] } = .next t ∧ t.mode = .running) :=
  ⟨⟨_, rfl, rfl⟩, ⟨_, rfl, rfl⟩⟩
theorem witness_ResetRestoresTheBlock :
    let s := { at_ 0x6001 State.reset with inputs := [⟨some .closed, some 0⟩] }
    s.inputs = ⟨some .closed, some 0⟩ :: [] := by decide
theorem witness_ResetKeepsWhatWasWritten :
    ∃ t, step { at_ 0xF155 { State.reset with i := 0x300 } with inputs := [⟨none, none⟩] } = .next t := ⟨_, rfl⟩
/-- A cycle that stores, outside `Idle`, and a step in which the host loads, in it. -/
theorem witness_TransactionsAccountForMemoryAndDisplay :
    ((at_ 0xF155 .reset).input.resetAfter = none ∧ (at_ 0xF155 .reset).mode ≠ .idle ∧
      ∃ t, step (at_ 0xF155 .reset) = .next t) ∧
    (let s := { State.reset with inputs := [⟨some (.hostFill [(0, 1)]), none⟩] }
     s.input.resetAfter = none ∧ ∃ t, step s = .next t) := ⟨⟨rfl, by decide, _, rfl⟩, rfl, _, rfl⟩
/-- Nothing arrives, and `closed` arrives. -/
theorem witness_KeyWaitFreezesTheMachine :
    let s := { State.reset with mode := .awaitingKey 15, inputs := [⟨none, none⟩] }
    let t := { State.reset with mode := .awaitingKey 15, inputs := [⟨some .closed, none⟩] }
    s.mode = .awaitingKey 15 ∧ s.inputs = ⟨none, none⟩ :: [] ∧ t.inputs = ⟨some .closed, none⟩ :: [] ∧
      ∀ code, some Arrival.closed ≠ some (.key code) := by decide
theorem witness_DeliveredKeyCompletesTheWait :
    let s := { State.reset with mode := .awaitingKey 15, inputs := [⟨some (.key 15), none⟩] }
    s.mode = .awaitingKey 15 ∧ s.inputs = ⟨some (.key 15), none⟩ :: [] := by decide
theorem witness_TimerLoadedIsTickedInTheSameCycle :
    let ok := fun (w : Word) (i : Instr) =>
      (at_ w .reset).Ready ∧ (at_ w .reset).Quiet ∧ (at_ w .reset).Fetchable ∧
        decodeWord (at_ w .reset).opcodeAtPc = .ok i
    ok 0xFF15 (.ldDtVx 15) ∧ ok 0xF018 (.ldStVx 0) ∧ ok 0xFF07 (.ldVxDt 15) := by decide
theorem witness_EveryStepKeepsTheInvariant : ∃ t, State.reset.Inv ∧ step State.reset = .next t :=
  ⟨_, ⟨rfl, by decide, by simp [State.reset], by decide, by decide, fun _ => rfl, fun _ => rfl,
    by simp [State.reset], by simp [State.reset]⟩, rfl⟩
/-- Each fault at its boundary, and just before it. -/
theorem witness_HandlersFaultExactlyAsListed :
    State.reset.mode ≠ .faulted ∧ raisedBy .ret .reset = some (4, 0) ∧
    raisedBy (.call 0) { State.reset with stack := List.replicate 16 0 } = some (3, 0x200) ∧
    raisedBy (.call 0) { State.reset with stack := List.replicate 15 0 } = none ∧
    raisedBy (.drw 0 0 1) { State.reset with i := 0x1000 } = some (2, 0x1000) ∧
    raisedBy (.drw 0 0 1) { State.reset with i := 0xFFF } = none ∧
    raisedBy (.drw 0 0 0) { State.reset with i := 0xFFFF } = none ∧
    raisedBy (.ldBVx 0) { State.reset with i := 0xFFE } = some (2, 0x1000) ∧
    raisedBy (.ldMemVx 15) { State.reset with i := 0xFF1 } = some (2, 0x1000) ∧
    raisedBy (.ldVxMem 15) { State.reset with i := 0xFF0 } = none := by decide
theorem witness_FaultingCycleChangesNothingElse :
    (at_ 0x00EE .reset).Ready ∧ (at_ 0x00EE .reset).Quiet ∧
      ∃ t, step (at_ 0x00EE .reset) = .next t ∧ t.mode = .faulted := ⟨by decide, by decide, _, rfl, rfl⟩
theorem witness_ReturnPopsAndSkipsTheCall :
    ({ State.reset with stack := [0x200] } : State).stack = [] ++ [0x200] ∧ State.reset.stack = [] := by decide
/-- The 16th nested call completes, the 17th overflows. -/
theorem witness_CallPushesItsOwnAddress :
    ({ State.reset with stack := List.replicate 15 0x200 } : State).stack.length ≠ 16 ∧
    ({ State.reset with stack := List.replicate 16 0x200 } : State).stack.length = 16 := by decide
theorem witness_ReturnComesBackAfterTheCall : State.reset.stack.length ≠ 16 := by decide
/-- Both outcomes of each comparison. -/
theorem witness_skips :
    State.reset.getV 0 = 0 ∧ State.reset.getV 0 ≠ 1 ∧ State.reset.getV 0 = State.reset.getV 1 ∧
      (regs [(1, 7)] .reset).getV 0 ≠ (regs [(1, 7)] .reset).getV 1 := by decide
/-- The flag clause of the flag writers is for `x` other than 15; the borrow and the carry clauses at their edges. -/
theorem witness_flagWriters :
    (14 : Reg) ≠ 15 ∧ 255 < (0xFF : Byte).toNat + (0x01 : Byte).toNat ∧ ¬ 255 < (0xFF : Byte).toNat + (0x00 : Byte).toNat ∧
      ¬ (5 : Byte).toNat < (5 : Byte).toNat := by decide
theorem witness_DecimalStoreWritesThreeDigits :
    ({ State.reset with i := 4093 } : State).i.toNat + 2 < 4096 ∧
    4096 ≤ ({ State.reset with i := 4094 } : State).i.toNat + 2 := by decide
theorem witness_RegisterStoreAndLoad :
    ({ State.reset with i := 4080 } : State).i.toNat + (15 : Reg).val < 4096 ∧
    4096 ≤ ({ State.reset with i := 4081 } : State).i.toNat + (15 : Reg).val := by decide
theorem witness_HandlersAccessMemoryAsListed :
    raisedBy (.ldBVx 0) .reset = none ∧ ∃ t, exec (.ldBVx 0) .reset = .next t := ⟨rfl, _, rfl⟩
theorem witness_FetchSeesBytesJustStored :
    let s := { State.reset with i := 4080 }
    s.i.toNat + (15 : Reg).val < 4096 ∧ (14 : Reg) < 15 ∧ ∃ t, exec (.ldMemVx 15) s = .next t := ⟨by decide, by decide, _, rfl⟩
theorem witness_RandomByteComesUnderTheMask : 7 < 8 ∧ (1 : Reg) ≠ 0 := by decide
/-- A sprite of one row at the last byte of memory, over a set and over a clear pixel. -/
def spriteAtTheEnd : State := bytes 0xFFF [0x81] (lit [(0, 0)] { State.reset with i := 0xFFF })
theorem witness_DrawExclusiveOrsTheSprite :
    1 < 16 ∧ (1 = 0 ∨ spriteAtTheEnd.i.toNat + 1 ≤ 4096) ∧
    (SpriteCovers spriteAtTheEnd 0 1 1 0 0 ∧ spriteAtTheEnd.pixel 0 0 = true) ∧
    (SpriteCovers spriteAtTheEnd 0 1 1 7 0 ∧ spriteAtTheEnd.pixel 7 0 = false) ∧
    ¬ SpriteCovers spriteAtTheEnd 0 1 1 1 0 := by
  unfold SpriteCovers; decide
/-- No rows, whatever `I` is; and a sprite that meets no set pixel. -/
theorem witness_DrawExclusiveOrsTheSprite_noCollision :
    (0 < 16 ∧ (0 = 0 ∨ ({ State.reset with i := 0xFFFF } : State).i.toNat + 0 ≤ 4096)) ∧
    ∀ px py, SpriteCovers (bytes 0xFFF [0x81] { State.reset with i := 0xFFF }) 0 1 1 px py →
      (bytes 0xFFF [0x81] { State.reset with i := 0xFFF }).pixel px py = false :=
  ⟨by decide, fun px py _ => by simp [bytes, State.pixel, State.reset]⟩
theorem witness_DrawMarksDirtyOncePerLitPixel : ∃ t, exec (.drw 0 1 1) spriteAtTheEnd = .next t := ⟨_, rfl⟩
theorem witness_DrawingTwiceRestoresTheDisplay :
    let s := bytes 0xFFF [0x81] { State.reset with i := 0xFFF }
    1 < 16 ∧ (1 = 0 ∨ s.i.toNat + 1 ≤ 4096) ∧
      (∃ t, exec (.drw 0 1 1) s = .next t ∧ t.getV 0 = s.getV 0 ∧ t.getV 1 = s.getV 1 ∧ t.getV 15 = 0) ∧
      ∃ px py, SpriteCovers s 0 1 1 px py :=
  ⟨by decide, by decide, ⟨_, rfl, rfl, rfl, rfl⟩, 0, 0, by unfold SpriteCovers; decide⟩
theorem witness_KeyWaitSuspendsTheCycle :
    (at_ 0xF30A .reset).Fetchable ∧ (at_ 0xF30A .reset).Ready ∧ (at_ 0xF30A .reset).Quiet ∧
      decodeWord (at_ 0xF30A .reset).opcodeAtPc = .ok (.ldVxK 3) := by decide
/-- Arms of the table: an instruction that does not fault answers a next state; the skips with either condition. -/
theorem witness_ProgramCounterFollowsTheTable :
    let s := { State.reset with stack := [0x200] }
    ([.cls, .ret, .jp 0, .call 0, .seImm 0 0, .seImm 0 1, .skp 0, .jpV0 0, .ldVxK 0, .drw 0 0 1].all
      (fun i => (raisedBy i s).isNone)) = true ∧
      (∃ t, exec .ret s = .next t) ∧ (∃ t, exec (.drw 0 0 1) s = .next t) ∧ ∃ t, exec (.ldVxK 0) s = .next t :=
  ⟨by decide, ⟨_, rfl⟩, ⟨_, rfl⟩, ⟨_, rfl⟩⟩
theorem witness_OnlyNamedRegistersAreWritten :
    (∃ t, exec (.addReg 0 1) .reset = .next t) ∧ ¬ writesReg (.addReg 0 1) 2 ∧
      ¬ (writesFlag (.addReg 0 1) = true ∧ (2 : Reg) = 15) ∧ writesFlag (.addReg 0 1) = true ∧
      raisedBy (.addReg 0 1) .reset = none ∧ ¬ writesReg (.addReg 0 1) 15 :=
  ⟨⟨_, rfl⟩, by unfold writesReg; decide, by decide, rfl, rfl, by unfold writesReg; decide⟩
theorem witness_EachStoreHasOnlyItsWriters :
    ∃ t, exec (.ldBVx 0) .reset = .next t := ⟨_, rfl⟩
theorem witness_HandlersUseThePortsAsListed : ∃ t, exec (.skp 0) .reset = .next t := ⟨_, rfl⟩
theorem witness_NoInstructionReadsTheSoundTimer :
    (∃ x, Instr.ldStVx 0 = .ldStVx x) ∧ ∀ x, Instr.ldDtVx 0 ≠ .ldStVx x := ⟨⟨0, rfl⟩, by simp⟩
/-- The largest program that fits. -/
theorem witness_LaunchPlacesFontAndProgram : (List.replicate 3584 (0 : Byte)).length ≤ 3584 := by
  rw [List.length_replicate]

end Sys2Proof.Tests
end

section
/-! PROOFS. What an instruction can do, said once: its fault as `raisedBy` lists it, or the terms of its completion
(`exec_cases`). -/

namespace Sys2Proof.Machine

/-! ### What a handler makes of a primitive's result -/

/-- A handler goes on with a primitive's answer, or takes fault entry (R256). -/
def Res.handle {α : Type} (k : α → State → Host.Outcome State Fault Refusal) :
    Res α → Host.Outcome State Fault Refusal
  | .ok a t => k a t
  | .raised f t => .next (t.enterFault f)

/-- A range of memory checked, bytes stored from `I` up, `pc` moved on: what `Fx33` and `Fx55` share (R204, R205). -/
def State.storeRun (bs : List Byte) (s : State) : Host.Outcome State Fault Refusal :=
  (s.checkRange s.base bs.length).handle fun _ t => (t.storeBytes s.base bs).handle fun _ u => .next u.advance

theorem State.length_regRange (s : State) (x : Reg) : (s.regRange x).length = rangeCount x := by
  simp only [State.regRange, List.length_take, Vector.length_toList, rangeCount]
  omega

theorem exec_ret (s : State) : exec .ret s = s.pop.handle fun a t => .next (t.setPc (a + 2)) := by
  simp only [exec, execRet]
  cases s.pop <;> rfl

theorem exec_call (nnn : Addr12) (s : State) :
    exec (.call nnn) s = (s.push s.pc).handle fun _ t => .next (t.setPc (targetOf nnn)) := by
  simp only [exec, execCall]
  cases s.push s.pc <;> rfl

theorem exec_drw (x y : Reg) (n : Nat) (s : State) :
    exec (.drw x y n) s = (s.checkRange s.base n).handle fun _ t =>
      ((t.setV VF 0).drawRows (s.getV x) (s.getV y) n 0).handle fun _ u => .next u.advance := by
  simp only [exec, execDrw]
  cases s.checkRange s.base n with
  | raised f t => rfl
  | ok _ t => simp only [Res.handle]; cases (t.setV VF 0).drawRows (s.getV x) (s.getV y) n 0 <;> rfl

theorem exec_ldBVx (x : Reg) (s : State) : exec (.ldBVx x) s = s.storeRun (decimalDigits (s.getV x)) := by
  simp only [exec, execLdBVx, State.storeRun, decimalDigits, List.length_cons, List.length_nil]
  cases s.checkRange s.base 3 with
  | raised f t => rfl
  | ok _ t => simp only [Res.handle]; cases t.storeBytes s.base _ <;> rfl

theorem exec_ldMemVx (x : Reg) (s : State) : exec (.ldMemVx x) s = s.storeRun (s.regRange x) := by
  simp only [exec, execLdMemVx, State.storeRun, State.length_regRange]
  cases s.checkRange s.base (rangeCount x) with
  | raised f t => rfl
  | ok _ t => simp only [Res.handle]; cases t.storeBytes s.base (s.regRange x) <;> rfl

theorem exec_ldVxMem (x : Reg) (s : State) :
    exec (.ldVxMem x) s = (s.checkRange s.base (rangeCount x)).handle fun _ t =>
      (t.loadRegs (rangeCount x) 0).handle fun _ u => .next u.advance := by
  simp only [exec, execLdVxMem]
  cases s.checkRange s.base (rangeCount x) with
  | raised f t => rfl
  | ok _ t => simp only [Res.handle]; cases t.loadRegs (rangeCount x) 0 <;> rfl

/-! ### Faulting or completing (R250, R256) -/

/-- The instruction takes fault entry, with the fault `raisedBy` lists. -/
def Faults (i : Instr) (s : State) : Prop :=
  ∃ f, raisedBy i s = some (f.code, f.detail) ∧ exec i s = .next (s.enterFault f)

/-- The fault of a range check as `raisedBy` writes it: the condition by the last address of the range (R79). -/
theorem map_rangeFault (base count : Nat) (p : Prop) [Decidable p] (h : p ↔ 0 < count ∧ 4096 ≤ base + count - 1) :
    (if p then some ((2 : BitVec 3), BitVec.ofNat 16 (max base 4096)) else none) =
      (rangeFault base count).map fun f => (f.code, f.detail) := by
  by_cases hp : p
  · rw [if_pos hp, rangeFault, if_pos (h.mp hp)]; rfl
  · rw [if_neg hp, rangeFault, if_neg (mt h.mpr hp)]; rfl

theorem raisedBy_drw (x y : Reg) (n : Nat) (s : State) :
    raisedBy (.drw x y n) s = (rangeFault s.base n).map fun f => (f.code, f.detail) :=
  map_rangeFault _ _ _ (by omega)

theorem raisedBy_ldBVx (x : Reg) (s : State) :
    raisedBy (.ldBVx x) s =
      (rangeFault s.base (decimalDigits (s.getV x)).length).map fun f => (f.code, f.detail) :=
  map_rangeFault _ _ _ (by simp only [decimalDigits, List.length_cons, List.length_nil]; omega)

theorem raisedBy_ldMemVx (x : Reg) (s : State) :
    raisedBy (.ldMemVx x) s = (rangeFault s.base (s.regRange x).length).map fun f => (f.code, f.detail) :=
  map_rangeFault _ _ _ (by rw [State.length_regRange, rangeCount]; omega)

theorem raisedBy_ldVxMem (x : Reg) (s : State) :
    raisedBy (.ldVxMem x) s = (rangeFault s.base (rangeCount x)).map fun f => (f.code, f.detail) :=
  map_rangeFault _ _ _ (by rw [rangeCount]; omega)

section RangeChecked
variable {i : Instr} {s : State} {count : Nat} {k : Unit → State → Host.Outcome State Fault Refusal}

/-- A handler that begins with a range check takes the fault of the check, or none is listed for it (R200). -/
theorem faults_or_of_checkRange (he : exec i s = (s.checkRange s.base count).handle k)
    (hr : raisedBy i s = (rangeFault s.base count).map fun f => (f.code, f.detail)) :
    Faults i s ∨ raisedBy i s = none := by
  rw [State.checkRange] at he
  cases hf : rangeFault s.base count with
  | none => exact .inr (by rw [hr, hf]; rfl)
  | some f => exact .inl ⟨f, by rw [hr, hf]; rfl, by rw [he, hf]; rfl⟩

theorem range_of_none_raised (hr : raisedBy i s = (rangeFault s.base count).map fun f => (f.code, f.detail))
    (hn : raisedBy i s = none) : count = 0 ∨ s.base + count ≤ Config.memSize := by
  by_contra hc
  rw [hr, rangeFault_some (by omega) (by omega)] at hn
  cases hn

/-- Past its range check a handler goes on from the same state. -/
theorem State.handle_checkRange (h : count = 0 ∨ s.base + count ≤ Config.memSize) :
    (s.checkRange s.base count).handle k = k () s := by
  rw [State.checkRange, rangeFault_none h]; rfl

end RangeChecked

/-- An instruction takes the fault listed for it, or none is listed (R250). -/
theorem faults_or_none_raised (i : Instr) (s : State) : Faults i s ∨ raisedBy i s = none := by
  cases i with
  | ret =>
    rcases s.pop_cases with ⟨rest, a, hs, -⟩ | ⟨hs, hp⟩
    · exact .inr (by simp [raisedBy, hs])
    · exact .inl ⟨.stackUnderflow, by simp [raisedBy, hs, Fault.code, Fault.detail], by rw [exec_ret, hp]; rfl⟩
  | call nnn =>
    rcases s.push_cases s.pc with ⟨hs, -⟩ | ⟨hs, hp⟩
    · exact .inr (if_neg hs)
    · exact .inl ⟨.stackOverflow s.pc, if_pos hs, by rw [exec_call, hp]; rfl⟩
  | drw x y n => exact faults_or_of_checkRange (exec_drw x y n s) (raisedBy_drw x y n s)
  | ldBVx x => exact faults_or_of_checkRange (exec_ldBVx x s) (raisedBy_ldBVx x s)
  | ldMemVx x => exact faults_or_of_checkRange (exec_ldMemVx x s) (raisedBy_ldMemVx x s)
  | ldVxMem x => exact faults_or_of_checkRange (exec_ldVxMem x s) (raisedBy_ldVxMem x s)
  | _ => exact .inr rfl

/-! ### Completing -/

/-- From `s` to `u` the bytes were stored from `I` up, in ascending order, and nothing else happened (R73). -/
structure StoredRun (bs : List Byte) (s u : State) : Prop where
  frame  : u = { s with mem := u.mem, trace := s.trace ++ storeEvents s.base bs }
  byteAt : ∀ k, u.byteAt k = if h : s.base ≤ k ∧ k < s.base + bs.length then bs[k - s.base] else s.byteAt k
  wf     : s.mem.wf = true → u.mem.wf = true

theorem State.storeRun_ok {bs : List Byte} {s : State} (h : bs.length = 0 ∨ s.base + bs.length ≤ Config.memSize) :
    ∃ u : State, s.storeRun bs = .next u.advance ∧ StoredRun bs s u := by
  rw [State.storeRun, State.handle_checkRange h]
  rcases h with h | h
  · rw [List.length_eq_zero_iff.mp h]
    exact ⟨s, rfl, by simp [storeEvents], fun k => by simp, id⟩
  · obtain ⟨u, hu, hf, hb, hw, -⟩ := State.storeBytes_ok s.base bs s h
    exact ⟨u, by rw [hu]; rfl, hf, hb, hw⟩

/-- The rows of a sprite in a range that passed its check (R232 step 4). -/
theorem State.drawRows_in_range (vx vy : Byte) {n : Nat} {s : State} (h : n = 0 ∨ s.base + n ≤ Config.memSize) :
    ∃ u, s.drawRows vx vy n 0 = .ok () u ∧ DrawFrame (spriteReads s n 0) s u ∧
      (n ≤ 32 → Drawn (spritePixels s vx vy n 0) s u) := by
  rcases h with rfl | h
  · exact ⟨s, rfl, DrawFrame.nil s, fun _ => Drawn.nil s⟩
  · obtain ⟨u, hu, hf, hd⟩ := State.drawRows_ok vx vy n 0 s h
    exact ⟨u, hu, hf, fun hn => hd (by omega)⟩

/-- `Fx65` inside memory loads `V0` to `Vx` (R206). -/
theorem State.loadRegs_in_range {x : Reg} {s : State} (h : s.base + rangeCount x ≤ Config.memSize) :
    ∃ u : State, s.loadRegs (rangeCount x) 0 = .ok () u ∧
      u = { s with v := u.v, trace := s.trace ++ readEvents s s.base (rangeCount x) } ∧
      ∀ r : Reg, u.getV r = if r ≤ x then s.byteAt (s.base + r.val) else s.getV r := by
  have hx : rangeCount x = x.val + 1 := rfl
  obtain ⟨u, hu, hf, hr⟩ := State.loadRegs_ok (rangeCount x) 0 s h (by omega)
  refine ⟨u, hu, hf, fun r => ?_⟩
  have hle : (0 ≤ r.val ∧ r.val < 0 + rangeCount x) ↔ r ≤ x := by rw [Fin.le_def]; omega
  rw [hr, if_congr hle rfl rfl]

/-- What an instruction that completes has done: for those that can fault, in the terms of the laws of the operations
they use; any other does what its arm of `exec` says. -/
def Completes (i : Instr) (s t : State) : Prop :=
  match i with
  | .ret => ∃ rest a, s.stack = rest ++ [a] ∧ t = State.setPc (a + 2) { s with stack := rest }
  | .call nnn =>
    s.stack.length ≠ Config.stackDepth ∧ t = State.setPc (targetOf nnn) { s with stack := s.stack ++ [s.pc] }
  | .drw x y n => ∃ u : State, t = u.advance ∧ DrawFrame (spriteReads s n 0) (s.setV VF 0) u ∧
      (n ≤ 32 → Drawn (spritePixels s (s.getV x) (s.getV y) n 0) (s.setV VF 0) u)
  | .ldBVx x => ∃ u : State, t = u.advance ∧ StoredRun (decimalDigits (s.getV x)) s u
  | .ldMemVx x => ∃ u : State, t = u.advance ∧ StoredRun (s.regRange x) s u
  | .ldVxMem x => ∃ u : State, t = u.advance ∧
      u = { s with v := u.v, trace := s.trace ++ readEvents s s.base (rangeCount x) } ∧
      ∀ r : Reg, u.getV r = if r ≤ x then s.byteAt (s.base + r.val) else s.getV r
  | _ => exec i s = .next t

/-- An instruction for which no fault is listed completes (R250). -/
theorem exec_completes {i : Instr} {s : State} (h : raisedBy i s = none) :
    ∃ t, exec i s = .next t ∧ Completes i s t := by
  cases i with
  | ret =>
    rcases s.pop_cases with ⟨rest, a, hs, hp⟩ | ⟨hs, -⟩
    · exact ⟨_, by rw [exec_ret, hp]; rfl, rest, a, hs, rfl⟩
    · cases h.symm.trans (if_pos hs)
  | call nnn =>
    rcases s.push_cases s.pc with ⟨hs, hp⟩ | ⟨hs, -⟩
    · exact ⟨_, by rw [exec_call, hp]; rfl, hs, rfl⟩
    · cases h.symm.trans (if_pos hs)
  | drw x y n =>
    have hn := range_of_none_raised (raisedBy_drw x y n s) h
    obtain ⟨u, hu, hf, hd⟩ := State.drawRows_in_range (s.getV x) (s.getV y) (s := s.setV VF 0) hn
    rw [spriteReads_congr (State.setV_mem ..) (State.setV_i ..)] at hf
    rw [spritePixels_congr (State.setV_mem ..) (State.setV_i ..)] at hd
    exact ⟨_, by rw [exec_drw, State.handle_checkRange hn, hu]; rfl, u, rfl, hf, hd⟩
  | ldBVx x =>
    obtain ⟨u, he, hu⟩ := State.storeRun_ok (range_of_none_raised (raisedBy_ldBVx x s) h)
    exact ⟨_, (exec_ldBVx x s).trans he, u, rfl, hu⟩
  | ldMemVx x =>
    obtain ⟨u, he, hu⟩ := State.storeRun_ok (range_of_none_raised (raisedBy_ldMemVx x s) h)
    exact ⟨_, (exec_ldMemVx x s).trans he, u, rfl, hu⟩
  | ldVxMem x =>
    have hn := range_of_none_raised (raisedBy_ldVxMem x s) h
    obtain ⟨u, hu, hf, hr⟩ := State.loadRegs_in_range (hn.resolve_left (Nat.succ_ne_zero _))
    exact ⟨_, by rw [exec_ldVxMem, State.handle_checkRange hn, hu]; rfl, u, rfl, hf, hr⟩
  | _ => exact ⟨_, rfl, rfl⟩

/-- Everything an instruction can do: take the fault listed for it, or complete (R250, R256). -/
theorem exec_cases {i : Instr} {s t : State} (h : exec i s = .next t) :
    (∃ f : Fault, raisedBy i s = some (f.code, f.detail) ∧ t = s.enterFault f) ∨
    (raisedBy i s = none ∧ Completes i s t) := by
  rcases faults_or_none_raised i s with ⟨f, hf, he⟩ | hn
  · exact .inl ⟨f, hf, Host.Outcome.next.inj (h.symm.trans he)⟩
  · obtain ⟨u, he, hc⟩ := exec_completes hn
    cases h.symm.trans he
    exact .inr ⟨hn, hc⟩

end Sys2Proof.Machine
end

section
/-! PROOFS. The rules about the whole instruction set: where `pc` goes, and who writes which register and which store.
-/

namespace Sys2Proof.Machine

/-! ### Registers, `pc` and flags after the common ends of a handler -/

@[simp] theorem State.getV_resultOnly (x k : Reg) (b : Byte) (s : State) :
    (s.resultOnly x b).getV k = if k = x then b else s.getV k := by
  rw [State.resultOnly, State.advance_getV, State.getV_setV]

@[simp] theorem State.getV_flagThenResult (x k : Reg) (f b : Byte) (s : State) :
    (s.flagThenResult x f b).getV k = if k = x then b else if k = VF then f else s.getV k := by
  rw [State.flagThenResult, State.advance_getV, State.getV_setV, State.getV_setV]

theorem State.getV_flagThenResult_other {x k : Reg} {f b : Byte} {s : State} (hx : ¬ k = x) (hf : ¬ k = VF) :
    (s.flagThenResult x f b).getV k = s.getV k := by
  rw [State.getV_flagThenResult, if_neg hx, if_neg hf]

theorem State.getV_flagThenResult_VF {x : Reg} {f b : Byte} {s : State} (hx : ¬ VF = x) :
    (s.flagThenResult x f b).getV VF = f := by
  rw [State.getV_flagThenResult, if_neg hx, if_pos rfl]

/-- A flag is 0 or 1 (R8, R21). -/
theorem boolByte_eq_zero_or_one (b : Bool) : boolByte b = 0 ∨ boolByte b = 1 := by
  cases b
  · exact .inl rfl
  · exact .inr rfl

theorem pcMoved_advance {s u : State} (h : u.pc = s.pc) : PcMoved 2 s u.advance := by
  simp [PcMoved, h]

/-- A skip by its condition (R23). -/
theorem pcMoved_skipIf {s u : State} {c : Bool} {p : Prop} [Decidable p] (h : u.pc = s.pc) (hc : c = true ↔ p) :
    PcMoved (if p then 4 else 2) s (u.skipIf c) := by
  rw [State.skipIf_eq, if_congr hc rfl rfl]
  split <;> simp [PcMoved, h]

/-- A 12-bit address widened to 16 bits (R93). -/
theorem toNat_targetOf (nnn : Addr12) : (targetOf nnn).toNat = nnn.toNat := by
  rw [targetOf, BitVec.toNat_setWidth]
  omega

/-! ### The program counter (R23) -/

/-- Settles O54: the handlers that fall through end in `advance`, the skips in `skipIf`, and the rest write `pc`
themselves or leave it. -/
theorem programCounterFollowsTheTable : Obligations.ProgramCounterFollowsTheTable := by
  intro i s t hn h
  rcases exec_cases h with ⟨f, hf, -⟩ | ⟨-, hc⟩
  · cases hf.symm.trans hn
  cases i with
  | jp nnn => cases h; exact toNat_targetOf nnn
  | call nnn =>
    obtain ⟨-, rfl⟩ := hc
    exact toNat_targetOf nnn
  | ret =>
    obtain ⟨rest, a, hs, rfl⟩ := hc
    exact ⟨rest, a, hs, by simp⟩
  | jpV0 nnn => cases h; simp [zext16, toNat_targetOf]
  | seImm x nn => cases h; exact pcMoved_skipIf rfl beq_iff_eq
  | sneImm x nn => cases h; exact pcMoved_skipIf rfl bne_iff_ne
  | seReg x y => cases h; exact pcMoved_skipIf rfl beq_iff_eq
  | sneReg x y => cases h; exact pcMoved_skipIf rfl bne_iff_ne
  | skp x => cases h; exact pcMoved_skipIf rfl Iff.rfl
  | sknp x => cases h; exact pcMoved_skipIf rfl (Bool.not_eq_true' _).to_iff
  | ldVxK x => cases h; rfl
  | drw x y n =>
    obtain ⟨u, rfl, hu, -⟩ := hc
    exact pcMoved_advance (by rw [hu.frame]; rfl)
  | ldBVx x | ldMemVx x =>
    obtain ⟨u, rfl, hu⟩ := hc
    exact pcMoved_advance (by rw [hu.frame])
  | ldVxMem x =>
    obtain ⟨u, rfl, hu, -⟩ := hc
    exact pcMoved_advance (by rw [hu])
  | _ => cases h; exact pcMoved_advance rfl

/-! ### Who writes which register and which store (R20, R21, R24, R26, R29, R122) -/

/-- Settles O55: the handlers that end in `resultOnly` write their destination, those that end in `flagThenResult` and
`Dxyn` the flag beside it, `Fx65` its range, and the rest no register. -/
theorem onlyNamedRegistersAreWritten : Obligations.OnlyNamedRegistersAreWritten := by
  intro i s t h
  rcases exec_cases h with ⟨f, hf, rfl⟩ | ⟨-, hc⟩
  · exact ⟨fun _ _ _ => rfl, fun _ hn => nomatch hf.symm.trans hn⟩
  cases i with
  | ldImm x | addImm x | ldReg x | or x | and x | xor x | rnd x | ldVxDt x =>
    cases h
    exact ⟨fun k hk _ => (State.getV_resultOnly ..).trans (if_neg hk), nofun⟩
  | addReg x | sub x | shr x | subn x | shl x =>
    cases h
    refine ⟨fun k hk hf => ?_, fun _ _ h15 => ?_⟩
    · exact State.getV_flagThenResult_other hk fun e => hf ⟨rfl, e⟩
    · rw [State.getV_flagThenResult_VF h15]
      exact boolByte_eq_zero_or_one _
  | drw x y n =>
    obtain ⟨u, rfl, hu, -⟩ := hc
    refine ⟨fun k _ hf => ?_, fun _ _ _ => ?_⟩
    · have hk : k ≠ VF := fun e => hf ⟨rfl, e⟩
      rw [State.advance_getV, hu.regs k hk, State.getV_setV, if_neg hk]
    · simpa using hu.flag
  | ldVxMem x =>
    obtain ⟨u, rfl, -, hv⟩ := hc
    exact ⟨fun k hk _ => (hv k).trans (if_neg hk), nofun⟩
  | ret =>
    obtain ⟨rest, a, -, rfl⟩ := hc
    exact ⟨fun _ _ _ => rfl, nofun⟩
  | call nnn =>
    obtain ⟨-, rfl⟩ := hc
    exact ⟨fun _ _ _ => rfl, nofun⟩
  | ldBVx x | ldMemVx x =>
    obtain ⟨u, rfl, hu⟩ := hc
    exact ⟨fun _ _ _ => by rw [hu.frame]; rfl, nofun⟩
  | _ => cases h; exact ⟨fun _ _ _ => rfl, nofun⟩

/-- Settles O56: a fault writes no store, and what a completed instruction wrote stands in `Completes`. -/
theorem eachStoreHasOnlyItsWriters : Obligations.EachStoreHasOnlyItsWriters := by
  intro i s t h
  rcases exec_cases h with ⟨f, -, rfl⟩ | ⟨-, hc⟩
  · exact ⟨.inl rfl, .inl rfl, .inl rfl, .inl rfl, .inl rfl, .inl fun _ => rfl⟩
  cases i with
  | ldI nnn | addIVx x | ldFVx x =>
    cases h
    exact ⟨.inr (by simp), .inl rfl, .inl rfl, .inl rfl, .inl rfl, .inl fun _ => rfl⟩
  | ret =>
    obtain ⟨rest, a, -, rfl⟩ := hc
    exact ⟨.inl rfl, .inr (.inl rfl), .inl rfl, .inl rfl, .inl rfl, .inl fun _ => rfl⟩
  | call nnn =>
    obtain ⟨-, rfl⟩ := hc
    exact ⟨.inl rfl, .inr (.inr ⟨nnn, rfl⟩), .inl rfl, .inl rfl, .inl rfl, .inl fun _ => rfl⟩
  | ldDtVx x =>
    cases h
    exact ⟨.inl rfl, .inl rfl, .inr ⟨x, rfl⟩, .inl rfl, .inl rfl, .inl fun _ => rfl⟩
  | ldStVx x =>
    cases h
    exact ⟨.inl rfl, .inl rfl, .inl rfl, .inr ⟨x, rfl⟩, .inl rfl, .inl fun _ => rfl⟩
  | cls =>
    cases h
    exact ⟨.inl rfl, .inl rfl, .inl rfl, .inl rfl, .inr (.inl rfl), .inl fun _ => rfl⟩
  | drw x y n =>
    obtain ⟨u, rfl, hu, -⟩ := hc
    rw [hu.frame]
    exact ⟨.inl rfl, .inl rfl, .inl rfl, .inl rfl, .inr (.inr ⟨x, y, n, rfl⟩), .inl fun _ => rfl⟩
  | ldBVx x =>
    obtain ⟨u, rfl, hu⟩ := hc
    rw [hu.frame]
    exact ⟨.inl rfl, .inl rfl, .inl rfl, .inl rfl, .inl rfl, .inr ⟨x, .inl rfl⟩⟩
  | ldMemVx x =>
    obtain ⟨u, rfl, hu⟩ := hc
    rw [hu.frame]
    exact ⟨.inl rfl, .inl rfl, .inl rfl, .inl rfl, .inl rfl, .inr ⟨x, .inr rfl⟩⟩
  | ldVxMem x =>
    obtain ⟨u, rfl, hu, -⟩ := hc
    rw [hu]
    exact ⟨.inl rfl, .inl rfl, .inl rfl, .inl rfl, .inl rfl, .inl fun _ => rfl⟩
  | _ => cases h; exact ⟨.inl rfl, .inl rfl, .inl rfl, .inl rfl, .inl rfl, .inl fun _ => rfl⟩

end Sys2Proof.Machine
end

section
/-! PROOFS. Noninterference: no handler sees the stop request, and none but that of `Fx18` the sound timer. -/

namespace Sys2Proof.Machine

/-! ### What no handler reads: the stop request, and the sound timer (R29, R38) -/

/-- The state with other values in the stop request and the sound timer. -/
def State.withUnseen (b : Bool) (c : Byte) (s : State) : State := { s with stopReq := b, st := c }

/-- A primitive's result with the state in it changed. -/
def Res.mapState {α : Type} (g : State → State) : Res α → Res α
  | .ok a t => .ok a (g t)
  | .raised f t => .raised f (g t)

section Unseen
variable (b : Bool) (c : Byte)

theorem State.memRead_withUnseen (a : Nat) (s : State) :
    (s.withUnseen b c).memRead a = (s.memRead a).mapState (State.withUnseen b c) := by
  unfold State.memRead
  split <;> rfl

theorem State.memWrite_withUnseen (a : Nat) (v : Byte) (s : State) :
    (s.withUnseen b c).memWrite a v = (s.memWrite a v).mapState (State.withUnseen b c) := by
  unfold State.memWrite
  split <;> rfl

theorem State.checkRange_withUnseen (base count : Nat) (s : State) :
    (s.withUnseen b c).checkRange base count = (s.checkRange base count).mapState (State.withUnseen b c) := by
  unfold State.checkRange
  cases rangeFault base count <;> rfl

theorem State.storeBytes_withUnseen (a : Nat) (bs : List Byte) (s : State) :
    (s.withUnseen b c).storeBytes a bs = (s.storeBytes a bs).mapState (State.withUnseen b c) := by
  induction bs generalizing a s with
  | nil => rfl
  | cons v bs ih =>
    simp only [State.storeBytes, State.memWrite_withUnseen]
    cases s.memWrite a v with
    | raised f t => rfl
    | ok _ t => exact ih (a + 1) t

theorem State.loadRegs_withUnseen (count k : Nat) (s : State) :
    (s.withUnseen b c).loadRegs count k = (s.loadRegs count k).mapState (State.withUnseen b c) := by
  induction count generalizing k s with
  | zero => rfl
  | succ n ih =>
    have hb : (s.withUnseen b c).base = s.base := rfl
    simp only [State.loadRegs, hb, State.memRead_withUnseen]
    cases s.memRead (s.base + k) with
    | raised f t => rfl
    | ok v t => exact ih (k + 1) (t.setV (Fin.ofNat 16 k) v)

theorem State.push_withUnseen (w : Word) (s : State) :
    (s.withUnseen b c).push w = (s.push w).mapState (State.withUnseen b c) := by
  have hs : (s.withUnseen b c).sp = s.sp := rfl
  simp only [State.push, hs]
  split <;> rfl

theorem State.pop_withUnseen (s : State) : (s.withUnseen b c).pop = s.pop.mapState (State.withUnseen b c) := by
  have hs : (s.withUnseen b c).stack = s.stack := rfl
  simp only [State.pop, hs]
  cases s.stack.getLast? <;> rfl

theorem State.flipPixel_withUnseen (px : Col) (py : Row) (s : State) :
    (s.withUnseen b c).flipPixel px py = (s.flipPixel px py).withUnseen b c := by
  have hp : (s.withUnseen b c).pixel px py = s.pixel px py := rfl
  simp only [State.flipPixel, hp]
  split <;> rfl

theorem State.drawRow_withUnseen (vx vy : Byte) (r : Nat) (row : Byte) (s : State) :
    (s.withUnseen b c).drawRow vx vy r row = (s.drawRow vx vy r row).withUnseen b c := by
  refine List.foldl_hom (State.withUnseen b c) fun t col => ?_
  unfold State.drawBit
  split
  · exact State.flipPixel_withUnseen b c _ _ t
  · rfl

theorem State.drawRows_withUnseen (vx vy : Byte) (count r : Nat) (s : State) :
    (s.withUnseen b c).drawRows vx vy count r = (s.drawRows vx vy count r).mapState (State.withUnseen b c) := by
  induction count generalizing r s with
  | zero => rfl
  | succ n ih =>
    have hb : (s.withUnseen b c).base = s.base := rfl
    simp only [State.drawRows, hb, State.memRead_withUnseen]
    cases s.memRead (s.base + r) with
    | raised f t => rfl
    | ok row t =>
      simp only [Res.mapState, State.drawRow_withUnseen]
      exact ih (r + 1) (t.drawRow vx vy r row)

/-- Two outcomes are the same next state but for the stop request and the sound timer, which have the given values in
the second. -/
def SameButUnseen (o o' : Host.Outcome State Fault Refusal) : Prop :=
  ∃ t : State, o = .next t ∧ o' = .next (t.withUnseen b c)

theorem Res.handle_mapState {α : Type} {k k' : α → State → Host.Outcome State Fault Refusal} (r : Res α)
    (hk : ∀ a t, SameButUnseen b c (k a t) (k' a (t.withUnseen b c))) :
    SameButUnseen b c (r.handle k) ((r.mapState (State.withUnseen b c)).handle k') := by
  cases r with
  | ok a t => exact hk a t
  | raised f t => exact ⟨t.enterFault f, rfl, rfl⟩

theorem State.storeRun_withUnseen (bs : List Byte) (s : State) :
    SameButUnseen b c (s.storeRun bs) ((s.withUnseen b c).storeRun bs) := by
  unfold State.storeRun
  rw [State.checkRange_withUnseen]
  refine Res.handle_mapState b c _ fun _ t => ?_
  rw [State.storeBytes_withUnseen]
  exact Res.handle_mapState b c _ fun _ u => ⟨u.advance, rfl, rfl⟩

/-- A handler but that of `Fx18` does the same whatever the stop request and the sound timer hold. -/
theorem exec_withUnseen (i : Instr) (hi : ∀ x, i ≠ .ldStVx x) (s : State) :
    SameButUnseen b c (exec i s) (exec i (s.withUnseen b c)) := by
  cases i with
  | ret =>
    rw [exec_ret, exec_ret, State.pop_withUnseen]
    exact Res.handle_mapState b c _ fun a t => ⟨t.setPc (a + 2), rfl, rfl⟩
  | call nnn =>
    rw [exec_call, exec_call, State.push_withUnseen]
    exact Res.handle_mapState b c _ fun _ t => ⟨t.setPc (targetOf nnn), rfl, rfl⟩
  | drw x y n =>
    rw [exec_drw, exec_drw, State.checkRange_withUnseen]
    refine Res.handle_mapState b c _ fun _ t => ?_
    have hd := State.drawRows_withUnseen b c (s.getV x) (s.getV y) n 0 (t.setV VF 0)
    exact hd ▸ Res.handle_mapState b c _ fun _ u => ⟨u.advance, rfl, rfl⟩
  | ldBVx x =>
    rw [exec_ldBVx, exec_ldBVx]
    exact State.storeRun_withUnseen b c _ s
  | ldMemVx x =>
    rw [exec_ldMemVx, exec_ldMemVx]
    exact State.storeRun_withUnseen b c _ s
  | ldVxMem x =>
    rw [exec_ldVxMem, exec_ldVxMem, State.checkRange_withUnseen]
    refine Res.handle_mapState b c _ fun _ t => ?_
    rw [State.loadRegs_withUnseen]
    exact Res.handle_mapState b c _ fun _ u => ⟨u.advance, rfl, rfl⟩
  | ldStVx x => exact absurd rfl (hi x)
  | _ => exact ⟨_, rfl, rfl⟩

end Unseen

/-- A handler but that of `Fx18` leaves both as they were: writing back their own values changes nothing. -/
theorem exec_keeps_unseen {i : Instr} (hi : ∀ x, i ≠ .ldStVx x) {s t : State} (h : exec i s = .next t) :
    t.stopReq = s.stopReq ∧ t.st = s.st := by
  obtain ⟨u, -, hu⟩ := exec_withUnseen s.stopReq s.st i hi s
  cases h.symm.trans hu
  exact ⟨rfl, rfl⟩

/-- Settles O58: `Fx18` by running it, any other handler by `exec_withUnseen` with the sound timer as it is. -/
theorem noInstructionSeesTheStopRequest : Obligations.NoInstructionSeesTheStopRequest := by
  intro i s b
  by_cases hi : ∃ x, i = .ldStVx x
  · obtain ⟨x, rfl⟩ := hi
    exact ⟨_, rfl, rfl, rfl⟩
  · have hi := not_exists.mp hi
    obtain ⟨t, ht, hu⟩ := exec_withUnseen b s.st i hi s
    obtain ⟨hstop, hst⟩ := exec_keeps_unseen hi ht
    exact ⟨t, ht, hstop, hst ▸ hu⟩

/-- Settles O59: `Fx18` overwrites the sound timer, any other handler by `exec_withUnseen` with the stop request as it
is. -/
theorem noInstructionReadsTheSoundTimer : Obligations.NoInstructionReadsTheSoundTimer := by
  intro i s c
  by_cases hi : ∃ x, i = .ldStVx x
  · obtain ⟨x, rfl⟩ := hi
    exact ⟨_, rfl, fun _ => rfl, fun h => absurd rfl (h x)⟩
  · obtain ⟨t, ht, hu⟩ := exec_withUnseen s.stopReq c i (not_exists.mp hi) s
    obtain ⟨hstop, -⟩ := exec_keeps_unseen (not_exists.mp hi) ht
    exact ⟨t, ht, fun h => absurd h hi, fun _ => hstop ▸ hu⟩

end Sys2Proof.Machine
end

section
/-! PROOFS. `closed`, and the invariant: each operation of the state keeps it, so every handler, cycle, arrival and
reset does. -/

namespace Sys2Proof.Machine

/-! ### What a step does, taken apart -/

/-- A step that answers: the block proceeded, then the input landed (R132, R142). -/
theorem proceed_of_step {s t : State} (h : step s = .next t) :
    ∃ u, s.dropInput.proceed = .next u ∧ t = applyInput s.input s.dropInput u := by
  simp only [step, State.oneStep] at h
  cases hp : s.dropInput.proceed with
  | next u => rw [hp] at h; exact ⟨u, rfl, (Host.Outcome.next.inj h).symm⟩
  | fault f => rw [hp] at h; cases h
  | refused r => rw [hp] at h; cases h

/-- `closed` sets the latch in any mode but `Idle` (R129, R31). -/
theorem State.onClosed_eq (s : State) : s.onClosed = if s.mode = .idle then s else { s with stopReq := true } := by
  unfold State.onClosed
  split
  next h => rw [if_pos h]
  all_goals next h => rw [if_neg (by simp [h])]

/-- Settles O16: the block proceeds alike under both inputs, and then `closed` lands on what it left. -/
theorem closedLatchesAndCutsNothing : Obligations.ClosedLatchesAndCutsNothing := by
  intro s t rest h
  obtain ⟨u, hu, ht⟩ := proceed_of_step h
  have hq : t = u := ht
  rw [step_of_proceed (s := { s with inputs := ⟨some .closed, none⟩ :: rest }) hu, hq, ← State.onClosed_eq]
  rfl

/-- The fetch at `pc`: the opcode, or a fault, with the reads made recorded and nothing else changed (R64, R134). -/
theorem State.fetch16_pc_cases (s : State) :
    (∃ h : s.Fetchable, s.fetch16 s.pc.toNat = .ok s.opcodeAtPc (s.afterFetch h)) ∨
    (¬ s.Fetchable ∧ ∃ f es, s.fetch16 s.pc.toNat = .raised f { s with trace := s.trace ++ es }) := by
  by_cases h : s.Fetchable
  · exact .inl ⟨h, State.fetch16_ok s h⟩
  · refine .inr ⟨h, ?_⟩
    by_cases hl : s.pc.toNat + 1 = Config.memSize
    · exact ⟨_, _, State.fetch16_last s hl⟩
    · exact ⟨_, [], by rw [List.append_nil]; exact State.fetch16_outside s (by omega)⟩

/-- What a handler left, where a cycle closed it. -/
theorem exec_of_closeCycle {o : Host.Outcome State Fault Refusal} {t : State} (h : closeCycle o = .next t) :
    ∃ u, o = .next u ∧ t = u.afterHandler := by
  cases o with
  | next u => exact ⟨u, rfl, (Host.Outcome.next.inj h).symm⟩
  | fault f => cases h
  | refused r => cases h

/-! ### The invariant and the state's operations -/

theorem State.Inv.cause_eq_zero {s : State} (h : s.Inv) (hs : s.mode ≠ .faulted) : s.cause = 0 :=
  by_contra fun hc => hs (h.faulted.mpr hc)

/-- Where a state that is not faulted is left `Running` with its record as it was, the invariant asks for the memory
and the stack only. -/
theorem State.Inv.running {s t : State} (h : s.Inv) (hs : s.mode ≠ .faulted) (ht : t.mode = .running)
    (hm : t.mem.wf = true) (hk : t.stack.length ≤ Config.stackDepth)
    (hr : ∀ w ∈ t.stack, w.toNat + 1 < Config.memSize) (hc : t.cause = s.cause := by rfl)
    (hi : t.info = s.info := by rfl) : t.Inv := by
  have h0 := h.cause_eq_zero hs
  constructor
  case memory => exact hm
  case stack => exact hk
  case returns => exact hr
  case faulted => simp [ht, hc, h0]
  case cause => simp [hc, h0]
  case info => exact fun _ => hi.trans (h.info h0)
  all_goals simp [ht]

/-- A state that differs in nothing the invariant speaks of but the bytes of its memory. -/
theorem State.Inv.congr {s t : State} (h : s.Inv) (hm : t.mem.wf = true) (hk : t.stack = s.stack := by rfl)
    (hmode : t.mode = s.mode := by rfl) (hstop : t.stopReq = s.stopReq := by rfl) (hc : t.cause = s.cause := by rfl)
    (hi : t.info = s.info := by rfl) (hpc : t.pc = s.pc := by rfl) : t.Inv := by
  constructor
  case memory => exact hm
  case stack => exact hk ▸ h.stack
  case returns => exact hk ▸ h.returns
  case faulted => rw [hmode, hc]; exact h.faulted
  case cause => exact hc ▸ h.cause
  case info => rw [hc, hi]; exact h.info
  case idle => rw [hmode, hstop]; exact h.idle
  case stopped => rw [hmode, hstop]; exact h.stopped
  case waiting => rw [hmode, hpc]; exact h.waiting

/-- A fault's code is one of 1 to 4 (R250, R255). -/
theorem Fault.code_legal (f : Fault) : f.code ≠ 0 ∧ f.code.toNat ≤ 4 := by
  cases f <;> exact ⟨by simp [Fault.code], by simp [Fault.code]⟩

theorem State.Inv.enterFault {s : State} (h : s.Inv) (f : Fault) : (s.enterFault f).Inv := by
  obtain ⟨hc, hl⟩ := f.code_legal
  constructor
  case memory => exact h.memory
  case stack => exact h.stack
  case returns => exact h.returns
  case faulted => exact iff_of_true rfl hc
  case cause => exact hl
  case info => exact fun h0 => absurd h0 hc
  all_goals simp

/-- A state just reset, over memory in canonical form (R39). -/
theorem State.Inv.blockReset {s : State} (h : s.mem.wf = true) : s.blockReset.Inv := by
  constructor
  case memory => exact h
  all_goals simp

/-- The stop check: the latch is set, and the block stops (R133). -/
theorem State.Inv.setStopped {s : State} (h : s.Inv) (hs : s.mode ≠ .faulted) (hstop : s.stopReq = true) :
    (s.setMode .stopped).Inv := by
  have h0 := h.cause_eq_zero hs
  exact ⟨h.memory, h.stack, h.returns, by simp [h0], h.cause, h.info, by simp, fun _ => hstop, by simp⟩

/-- An `Fx0A` dispatched at a `pc` it was fetched from (R236). -/
theorem State.Inv.setAwaitingKey {s : State} (h : s.Inv) (hs : s.mode ≠ .faulted) (hp : s.Fetchable) (kx : Reg) :
    (s.setMode (.awaitingKey kx)).Inv := by
  have h0 := h.cause_eq_zero hs
  exact ⟨h.memory, h.stack, h.returns, by simp [h0], h.cause, h.info, by simp, by simp, fun _ _ => hp⟩

theorem State.Inv.finishCycle {s : State} (h : s.Inv) : s.finishCycle.Inv := by
  rw [State.finishCycle_frame]
  exact h.congr h.memory

/-! ### The handlers keep the invariant -/

/-- A fault is recorded; `2nnn` pushes the `pc` it was fetched from, below the bound; `Fx33` and `Fx55` keep the
canonical form; `Fx0A` waits at that `pc`; nothing else touches what the invariant speaks of. -/
theorem State.Inv.of_exec {i : Instr} {s t : State} (h : s.Inv) (hr : s.mode = .running) (hp : s.Fetchable)
    (he : exec i s = .next t) : t.Inv := by
  have hs : s.mode ≠ .faulted := by simp [hr]
  rcases exec_cases he with ⟨f, -, rfl⟩ | ⟨-, hc⟩
  · exact h.enterFault f
  cases i with
  | ret =>
    obtain ⟨rest, a, hst, rfl⟩ := hc
    refine h.running hs hr h.memory ?_ fun w hw => h.returns w ?_
    · have := h.stack
      rw [hst, List.length_append] at this
      exact Nat.le_trans (Nat.le_add_right _ _) this
    · rw [hst]
      exact List.mem_append_left _ hw
  | call nnn =>
    obtain ⟨hn, rfl⟩ := hc
    refine h.running hs hr h.memory ?_ fun w hw => ?_
    · have := h.stack
      simp only [State.setPc_stack, List.length_append, List.length_singleton]
      omega
    · rcases List.mem_append.mp hw with hw | hw
      · exact h.returns w hw
      · rw [List.mem_singleton.mp hw]
        exact hp
  | drw x y n =>
    obtain ⟨u, rfl, hu, -⟩ := hc
    rw [hu.frame]
    exact h.running hs hr h.memory h.stack h.returns
  | ldBVx x | ldMemVx x =>
    obtain ⟨u, rfl, hu⟩ := hc
    have hw := hu.wf h.memory
    rw [hu.frame]
    exact h.running hs hr hw h.stack h.returns
  | ldVxMem x =>
    obtain ⟨u, rfl, hu, -⟩ := hc
    rw [hu]
    exact h.running hs hr h.memory h.stack h.returns
  | ldVxK x =>
    cases hc
    exact (h.setAwaitingKey hs hp x).congr h.memory
  | _ =>
    cases hc
    exact h.running hs hr h.memory h.stack h.returns

/-! ### What the block does of itself keeps the invariant -/

theorem State.Inv.afterHandler {s : State} (h : s.Inv) : s.afterHandler.Inv := by
  rcases s.afterHandler_cases with ⟨-, e⟩ | ⟨-, e⟩
  · exact e ▸ h.finishCycle
  · rwa [e]

theorem State.Inv.of_dispatch {op : Word} {s t : State} (h : s.Inv) (hr : s.mode = .running) (hp : s.Fetchable)
    (hd : s.dispatch op = .next t) : t.Inv := by
  unfold State.dispatch at hd
  cases hop : decodeWord op with
  | ok i =>
    rw [hop] at hd
    obtain ⟨u, he, rfl⟩ := exec_of_closeCycle hd
    exact (h.of_exec hr hp he).afterHandler
  | error e =>
    rw [hop] at hd
    cases hd
    exact h.enterFault _

theorem State.Inv.of_proceed {s t : State} (h : s.Inv) (hp : s.proceed = .next t) : t.Inv := by
  by_cases hr : s.mode = .running
  · by_cases hstop : s.stopReq = true
    · rw [State.proceed_stop hr hstop] at hp
      cases hp
      exact h.setStopped (by simp [hr]) hstop
    · rw [State.proceed_ready ⟨hr, Bool.not_eq_true _ ▸ hstop⟩] at hp
      rcases s.fetch16_pc_cases with ⟨hf, e⟩ | ⟨-, f, es, e⟩
      · rw [e] at hp
        exact (h.congr h.memory : (s.afterFetch hf).Inv).of_dispatch hr hf hp
      · rw [e] at hp
        cases hp
        exact (h.enterFault f).congr h.memory
  · rw [State.proceed_idle hr] at hp
    cases hp
    exact h

/-! ### What arrives keeps the invariant, a reset in the step included -/

theorem State.Inv.onClosed {s : State} (h : s.Inv) : s.onClosed.Inv := by
  rw [State.onClosed_eq]
  split
  · exact h
  · next hn =>
    exact ⟨h.memory, h.stack, h.returns, h.faulted, h.cause, h.info, fun e => absurd e hn, fun _ => rfl, h.waiting⟩

theorem State.Inv.arrive {s : State} (h : s.Inv) (a : Option Arrival) : (s.arrive a).Inv := by
  match a with
  | none => exact h
  | some .closed => exact h.onClosed
  | some .start =>
    simp only [State.arrive, State.onStart]
    split
    · next hm => exact h.running (by simp [hm]) rfl h.memory h.stack h.returns
    all_goals exact h
  | some (.key code) =>
    simp only [State.arrive, State.onKey]
    split
    · next kx hm =>
      exact State.Inv.finishCycle (h.running (by simp [hm]) rfl h.memory h.stack h.returns)
    all_goals exact h
  | some (.hostFill cells) =>
    simp only [State.arrive, State.onHostFill]
    split
    · exact h.congr (Memory.wf_fill h.memory cells)
    all_goals exact h
  | some (.hostPicture fb dirty) =>
    simp only [State.arrive, State.onHostPicture]
    split
    · exact h.congr h.memory
    all_goals exact h

/-- No transaction, and nothing the host writes, takes memory out of its canonical form (R60). -/
theorem Outside.wf_after {o : Outside} (h : o.mem.wf = true) (e : Event) : (o.after e).mem.wf = true := by
  cases e with
  | memWrite a b => exact Memory.wf_set h a.isLt b
  | hostFill cells => exact Memory.wf_fill h cells
  | _ => exact h

theorem Outside.wf_foldl_after {o : Outside} (h : o.mem.wf = true) (es : List Event) :
    (es.foldl Outside.after o).mem.wf = true := by
  induction es generalizing o with
  | nil => exact h
  | cons e es ih => exact ih (Outside.wf_after h e)

theorem State.Inv.of_applyInput {s t : State} (hs : s.Inv) (ht : t.Inv) (inp : Input) : (applyInput inp s t).Inv := by
  unfold applyInput
  split
  · exact ht.arrive _
  · exact State.Inv.blockReset (Outside.wf_foldl_after hs.memory _)

/-- Settles O24: reset states every field the invariant speaks of. -/
theorem resetSatisfiesTheInvariant : Obligations.ResetSatisfiesTheInvariant :=
  (State.Inv.blockReset (s := .reset) Memory.wf_nil).congr Memory.wf_nil

/-- Settles O25: what the block does of itself keeps the invariant, and so does what the environment does after it. -/
theorem everyStepKeepsTheInvariant : Obligations.EveryStepKeepsTheInvariant := by
  intro s t h hstep
  obtain ⟨u, hu, rfl⟩ := proceed_of_step hstep
  have hd : s.dropInput.Inv := h.congr h.memory
  exact hd.of_applyInput (hd.of_proceed hu) s.input

end Sys2Proof.Machine
end

section
/-! PROOFS. Fetch and memory accesses: which transactions each operation of the block makes, that they account for the
stores outside the block, and what a fetch reads after a store. -/

namespace Sys2Proof.Machine

/-! ### The transactions between two states -/

/-- From `s` to `t` the block made the transactions `es`, in order: they account for the stores outside it, none of
them is the host's, and the block did not go to `Idle`, which only `reset` does (R123, R131, R290). -/
structure Transacts (es : List Event) (s t : State) : Prop where
  trace     : t.trace = s.trace ++ es
  outside   : t.outside = es.foldl Outside.after s.outside
  notByHost : ∀ e ∈ es, e.byHost = false
  notIdle   : s.mode ≠ .idle → t.mode ≠ .idle

/-- Only what lies inside the block changed. -/
theorem Transacts.nil {s t : State} (hi : s.mode ≠ .idle → t.mode ≠ .idle) (ht : t.trace = s.trace := by rfl)
    (ho : t.outside = s.outside := by rfl) : Transacts [] s t :=
  ⟨by rw [ht, List.append_nil], ho, by simp, hi⟩

theorem Transacts.single {s t : State} (e : Event) (he : e.byHost = false) (hi : s.mode ≠ .idle → t.mode ≠ .idle)
    (ht : t.trace = s.trace ++ [e] := by rfl) (ho : t.outside = s.outside.after e := by rfl) : Transacts [e] s t :=
  ⟨ht, ho, by simpa using he, hi⟩

/-- A recorded read changes nothing but the record (R71). -/
theorem Transacts.read (a : Fin Config.memSize) (b : Byte) (s : State) :
    Transacts [.memRead a b] s (s.log (.memRead a b)) := .single _ rfl id

theorem Transacts.append {es fs : List Event} {s t u : State} (h : Transacts es s t) (h' : Transacts fs t u) :
    Transacts (es ++ fs) s u where
  trace     := by rw [h'.trace, h.trace, List.append_assoc]
  outside   := by rw [h'.outside, h.outside, List.foldl_append]
  notByHost := fun e he => (List.mem_append.mp he).elim (h.notByHost e) (h'.notByHost e)
  notIdle   := fun hi => h'.notIdle (h.notIdle hi)

/-- A change of `pc` after the transactions makes none. -/
theorem Transacts.advance {es : List Event} {s t : State} (h : Transacts es s t) : Transacts es s t.advance :=
  ⟨h.trace, h.outside, h.notByHost, h.notIdle⟩

theorem Transacts.enterFault (f : Fault) (s : State) : Transacts [] s (s.enterFault f) := .nil (by simp)

/-! ### Runs of stores and of reads (R70, R73) -/

theorem storeEvents_notByHost (a : Nat) (bs : List Byte) : ∀ e ∈ storeEvents a bs, e.byHost = false := by
  induction bs generalizing a with
  | nil => simp [storeEvents]
  | cons b bs ih => simpa [storeEvents, Event.byHost] using ih (a + 1)

theorem storeEvents_access {a : Nat} {bs : List Byte} (h : a + bs.length ≤ Config.memSize) :
    (storeEvents a bs).filterMap Event.access = bs.mapIdx fun k b => (true, a + k, b) := by
  induction bs generalizing a with
  | nil => rfl
  | cons b bs ih =>
    rw [List.length_cons] at h
    have hshift : ∀ k, a + 1 + k = a + (k + 1) := by omega
    simp [storeEvents, portAddr_of_lt (show a < Config.memSize by omega), Event.access, List.mapIdx_cons,
      ih (a := a + 1) (by omega), hshift]

theorem readEvents_notByHost (s : State) (a count : Nat) : ∀ e ∈ readEvents s a count, e.byHost = false := by
  induction count generalizing a with
  | zero => simp [readEvents]
  | succ n ih => simpa [readEvents, Event.byHost] using ih (a + 1)

theorem readEvents_access (s : State) {a count : Nat} (h : a + count ≤ Config.memSize) :
    (readEvents s a count).filterMap Event.access =
      (List.range count).map fun k => (false, a + k, s.byteAt (a + k)) := by
  induction count generalizing a with
  | zero => rfl
  | succ n ih =>
    have hshift : ∀ k, a + 1 + k = a + (k + 1) := by omega
    simp [readEvents, portAddr_of_lt (show a < Config.memSize by omega), Event.access, List.range_succ_eq_map,
      ih (a := a + 1) (by omega), hshift]

/-- The range of registers, register by register (R205). -/
theorem State.getElem_regRange {s : State} {x : Reg} {k : Nat} (hk : k < (s.regRange x).length) :
    (s.regRange x)[k] = s.getV (Fin.ofNat 16 k) := by
  have h16 : k < 16 := by
    rw [State.length_regRange, rangeCount] at hk
    omega
  simp [State.regRange, State.getV, Nat.mod_eq_of_lt h16]

theorem State.mapIdx_regRange {α : Type} (f : Nat → Byte → α) (s : State) (x : Reg) :
    (s.regRange x).mapIdx f = (List.range (x.val + 1)).map fun k => f k (s.getV (Fin.ofNat 16 k)) := by
  apply List.ext_getElem
  · simp [State.length_regRange, rangeCount]
  · intro k hk _
    simp [State.getElem_regRange (List.length_mapIdx ▸ hk)]

/-- `Fx33` and `Fx55` inside memory make one write per byte (R204, R205). -/
theorem State.transacts_storeRun {bs : List Byte} {s t : State} (h : s.base + bs.length ≤ Config.memSize)
    (ht : s.storeRun bs = .next t) : Transacts (storeEvents s.base bs) s t := by
  obtain ⟨u, hu, hf, -, -, ho⟩ := State.storeBytes_ok s.base bs s h
  rw [State.storeRun, State.handle_checkRange (.inr h), hu] at ht
  cases ht
  exact ⟨by rw [hf]; rfl, ho, storeEvents_notByHost _ _, fun hi => by rw [hf]; exact hi⟩

/-! ### The handlers (R70) -/

theorem Event.notByHost_of_ofDraw {e : Event} (h : e.ofDraw = true) : e.byHost = false := by
  cases e with
  | hostFill cells | hostPicture fb dirty => cases h
  | _ => rfl

theorem DrawFrame.transacts {acc : List (Bool × Nat × Byte)} {s t : State} (h : DrawFrame acc s t) :
    ∃ es, Transacts es s t ∧ es.filterMap Event.access = acc := by
  obtain ⟨es, ht, ho, ha, hd⟩ := h.events
  exact ⟨es, ⟨ht, ho, fun e he => Event.notByHost_of_ofDraw (hd e he), fun hi => by rw [h.frame]; exact hi⟩, ha⟩

/-- Every handler's transactions account for the stores outside the block, and one that completes makes the listed
accesses. -/
theorem exec_transacts {i : Instr} {s t : State} (h : exec i s = .next t) :
    ∃ es, Transacts es s t ∧ (raisedBy i s = none → es.filterMap Event.access = accessesOf i s) := by
  rcases exec_cases h with ⟨f, hf, rfl⟩ | ⟨hn, hc⟩
  · exact ⟨[], .enterFault f s, fun hn => nomatch hf.symm.trans hn⟩
  cases i with
  | cls => cases h; exact ⟨_, .single .dispClear rfl id, fun _ => rfl⟩
  | skp x | sknp x => cases h; exact ⟨_, .single (.isKeyDown _ _) rfl id, fun _ => rfl⟩
  | rnd x nn => cases h; exact ⟨_, .single (.rand _) rfl id, fun _ => rfl⟩
  | ldVxK x => cases h; exact ⟨_, .single .waitForAnyKey rfl (by simp), fun _ => rfl⟩
  | ret =>
    obtain ⟨rest, a, -, rfl⟩ := hc
    exact ⟨[], .nil id, fun _ => rfl⟩
  | call nnn =>
    obtain ⟨-, rfl⟩ := hc
    exact ⟨[], .nil id, fun _ => rfl⟩
  | drw x y n =>
    obtain ⟨u, rfl, hu, -⟩ := hc
    obtain ⟨es, he, ha⟩ := hu.transacts
    refine ⟨[] ++ es, (Transacts.nil (s := s) (t := s.setV VF 0) id).append he.advance, fun _ => ?_⟩
    rw [List.nil_append, ha, spriteReads_eq]
    simp [accessesOf, State.base]
  | ldBVx x =>
    have hr := (range_of_none_raised (raisedBy_ldBVx x s) hn).resolve_left (Nat.succ_ne_zero _)
    exact ⟨_, State.transacts_storeRun hr ((exec_ldBVx x s).symm.trans h), fun _ => storeEvents_access hr⟩
  | ldMemVx x =>
    have hr := (range_of_none_raised (raisedBy_ldMemVx x s) hn).resolve_left
      (by rw [State.length_regRange]; exact Nat.succ_ne_zero _)
    refine ⟨_, State.transacts_storeRun hr ((exec_ldMemVx x s).symm.trans h), fun _ => ?_⟩
    rw [storeEvents_access hr, State.mapIdx_regRange]
    rfl
  | ldVxMem x =>
    have hr := (range_of_none_raised (raisedBy_ldVxMem x s) hn).resolve_left (Nat.succ_ne_zero _)
    obtain ⟨u, rfl, hu, -⟩ := hc
    refine ⟨readEvents s s.base (rangeCount x), .advance ?_, fun _ => readEvents_access s hr⟩
    rw [hu]
    exact ⟨rfl, (readEvents_outside ..).symm, readEvents_notByHost _ _ _, id⟩
  | _ => cases h; exact ⟨[], .nil id, fun _ => rfl⟩

/-- Settles O44: the accesses among the transactions of `exec_transacts`. -/
theorem handlersAccessMemoryAsListed : Obligations.HandlersAccessMemoryAsListed := by
  intro i s t hn h
  obtain ⟨es, he, ha⟩ := exec_transacts h
  exact ⟨es, he.trace, ha hn⟩

/-! ### The step (R72, R123, R131) -/

/-- The state a primitive leaves, whether it answers or raises. -/
def Res.state {α : Type} : Res α → State
  | .ok _ t => t
  | .raised _ t => t

/-- A fetch makes the reads that are inside memory, also where it raises (R64). -/
theorem State.transacts_fetch16 (a : Nat) (s : State) : ∃ es, Transacts es s (s.fetch16 a).state := by
  rcases Nat.lt_trichotomy (a + 1) Config.memSize with h | h | h
  · rw [State.fetch16_ok s h]
    exact ⟨_, (Transacts.read _ _ s).append (.read _ _ _)⟩
  · rw [State.fetch16_last s h]
    exact ⟨_, .read _ _ s⟩
  · rw [State.fetch16_outside s (Nat.le_of_lt_succ h)]
    exact ⟨_, .nil id⟩

theorem State.transacts_afterHandler (s : State) : ∃ es, Transacts es s s.afterHandler := by
  rcases s.afterHandler_cases with ⟨hm, e⟩ | ⟨-, e⟩
  · obtain ⟨ht, ho⟩ := s.finishCycle_events
    rw [e]
    refine ⟨_, ht, ho, ?_, fun hi => ?_⟩
    · split <;> simp [Event.byHost]
    · rw [State.finishCycle_frame]
      exact hi
  · rw [e]
    exact ⟨[], .nil id⟩

theorem State.transacts_dispatch {op : Word} {s t : State} (h : s.dispatch op = .next t) :
    ∃ es, Transacts es s t := by
  unfold State.dispatch at h
  cases hop : decodeWord op with
  | ok i =>
    rw [hop] at h
    obtain ⟨u, he, rfl⟩ := exec_of_closeCycle h
    obtain ⟨es, hes, -⟩ := exec_transacts he
    obtain ⟨fs, hfs⟩ := u.transacts_afterHandler
    exact ⟨_, hes.append hfs⟩
  | error e =>
    rw [hop] at h
    cases h
    exact ⟨_, .enterFault _ s⟩

/-- What the block does of itself: nothing, the stop check, or the fetch and what follows it (R132 to R136). -/
theorem State.transacts_proceed {s t : State} (h : s.proceed = .next t) : ∃ es, Transacts es s t := by
  by_cases hr : s.mode = .running
  · by_cases hstop : s.stopReq = true
    · rw [State.proceed_stop hr hstop] at h
      cases h
      exact ⟨_, .nil (by simp)⟩
    · rw [State.proceed_ready ⟨hr, Bool.not_eq_true _ ▸ hstop⟩] at h
      obtain ⟨es, hes⟩ := s.transacts_fetch16 s.pc.toNat
      cases hf : s.fetch16 s.pc.toNat with
      | ok op u =>
        rw [hf] at h hes
        obtain ⟨fs, hfs⟩ := State.transacts_dispatch h
        exact ⟨_, hes.append hfs⟩
      | raised f u =>
        rw [hf] at h hes
        cases h
        exact ⟨_, hes.append (.enterFault f u)⟩
  · rw [State.proceed_idle hr] at h
    cases h
    exact ⟨_, .nil id⟩

/-- Settles O19: the block's own transactions account for the stores, and then what arrives does; outside `Idle` the
block is still outside it when the host's writing would land. -/
theorem transactionsAccountForMemoryAndDisplay : Obligations.TransactionsAccountForMemoryAndDisplay := by
  intro s t hreset h
  obtain ⟨u, hu, ht⟩ := proceed_of_step h
  have ht : t = u.arrive s.input.arrives := by rw [ht, applyInput, hreset]
  obtain ⟨es, hes⟩ := State.transacts_proceed hu
  obtain ⟨fs, htrace, hout, hhost⟩ := u.arrive_events s.input.arrives
  refine ⟨es ++ fs, ?_, ?_, fun hi e he => ?_⟩
  · rw [ht, htrace, hes.trace, State.dropInput_trace, List.append_assoc]
  · rw [ht, hout, hes.outside, List.foldl_append]
    rfl
  · exact (List.mem_append.mp he).elim (hes.notByHost e) (hhost (hes.notIdle hi) e)

/-! ### The fetch (R64, R76) -/

/-- The opcode of two bytes, high byte first (R64). -/
theorem toNat_append_bytes (hi lo : Byte) : (hi ++ lo).toNat = 256 * hi.toNat + lo.toNat := by
  rw [BitVec.toNat_append, ← Nat.shiftLeft_add_eq_or_of_lt lo.isLt, Nat.shiftLeft_eq, Nat.mul_comm]

/-- Settles O10: the law of the fetch in each of the three ranges. -/
theorem fetchIsBigEndianAndChecked : Obligations.FetchIsBigEndianAndChecked := by
  intro a s
  refine ⟨fun h => ?_, fun h => ?_, fun h => State.fetch16_outside s h⟩
  · exact ⟨_, _, State.fetch16_ok s h, toNat_append_bytes _ _, rfl⟩
  · exact ⟨_, State.fetch16_last s (congrArg (· + 1) h), rfl⟩

/-- After `Fx55` the byte at `I + k` is `V[k]` (R205). -/
theorem StoredRun.byteAt_regRange {s u : State} {x k : Reg} (h : StoredRun (s.regRange x) s u) (hk : k ≤ x) :
    u.byteAt (s.base + k.val) = s.getV k := by
  have hlen : k.val < (s.regRange x).length := by
    rw [State.length_regRange]
    exact Nat.lt_succ_of_le hk
  rw [h.byteAt, dif_pos (by omega)]
  simp [State.getElem_regRange]

/-- Settles O45: the two bytes fetched are the registers stored there. -/
theorem fetchSeesBytesJustStored : Obligations.FetchSeesBytesJustStored := by
  intro x k s t hx hk h
  have hn : raisedBy (.ldMemVx x) s = none := if_neg (Nat.not_le.mpr hx)
  rcases exec_cases h with ⟨f, hf, -⟩ | ⟨-, u, rfl, hu⟩
  · cases hf.symm.trans hn
  have hsucc : (k + 1).val = k.val + 1 := Fin.val_add_one_of_lt (Fin.lt_of_lt_of_le hk (Fin.le_last x))
  have hhi : u.byteAt (s.i.toNat + k.val) = s.getV k := hu.byteAt_regRange (Fin.le_of_lt hk)
  have hlo : u.byteAt (s.i.toNat + k.val + 1) = s.getV (k + 1) := by
    have := hu.byteAt_regRange (k := k + 1) (Fin.le_def.mpr (hsucc ▸ hk))
    rwa [hsucc] at this
  have hmem : s.i.toNat + k.val + 1 < Config.memSize := Nat.lt_of_le_of_lt (Nat.add_le_add_left hk _) hx
  refine ⟨_, _, State.fetch16_ok _ hmem, ?_⟩
  rw [State.advance_byteAt, State.advance_byteAt, hhi, hlo, toNat_append_bytes]

end Sys2Proof.Machine
end

section
/-! PROOFS. Encoding: every row of the opcode table follows one of the six formats of spec/30_encoding.md R92
(`opcodeTable_formats`), and what holds of the decoder and the encoder is proved once for each format. -/

namespace Sys2Proof.Encoding
open Laws

/-! ### The formats (R92) -/

/-- The six formats of R92. -/
inductive Format where
  | fixed | nnn | xnn | xyn | xy | x

/-- The fixed bits of a format (R92). -/
def Format.mask : Format → Word
  | .fixed => 0xFFFF
  | .nnn | .xnn | .xyn => 0xF000
  | .xy => 0xF00F
  | .x => 0xF0FF

/-- The power of 16 below which a format's low fixed digits stand (R92). -/
def Format.low : Format → Nat
  | .fixed => 4096
  | .nnn | .xnn | .xyn => 1
  | .xy => 16
  | .x => 256

theorem Format.low_pos (φ : Format) : 0 < φ.low := by cases φ <;> decide

theorem Format.low_le (φ : Format) : φ.low ≤ 4096 := by cases φ <;> decide

theorem Format.mod_low_lt (φ : Format) (a : Nat) : a % φ.low < 4096 :=
  Nat.lt_of_lt_of_le (Nat.mod_lt a φ.low_pos) φ.low_le

/-- Every field 0. -/
def noFields : Fields := ⟨0, 0, 0, 0, 0, 0⟩

/-- The fields a format uses (R92), every other one cleared. -/
def Format.only (f : Fields) : Format → Fields
  | .fixed => noFields
  | .nnn => { noFields with nnn := f.nnn }
  | .xnn => { noFields with x := f.x, nn := f.nn }
  | .xyn => { noFields with x := f.x, y := f.y, n := f.n }
  | .xy => { noFields with x := f.x, y := f.y }
  | .x => { noFields with x := f.x }

/-- What the used fields add to a row's value, each in its place (R91). -/
def Format.place (f : Fields) : Format → Nat
  | .fixed => 0
  | .nnn => f.nnn.toNat
  | .xnn => f.x.val * 256 + f.nn.toNat
  | .xyn => f.x.val * 256 + f.y.val * 16 + f.n % 16
  | .xy => f.x.val * 256 + f.y.val * 16
  | .x => f.x.val * 256

/-- The word with the used fields placed on a row's value (R104). -/
def Format.word (value : Nat) (f : Fields) : Format → Word
  | .fixed => BitVec.ofNat 16 value
  | .nnn => wordNNN value f.nnn
  | .xnn => wordXNN value f.x f.nn
  | .xyn => wordXYN value f.x f.y f.n
  | .xy => wordXY value f.x f.y
  | .x => wordX value f.x

/-- The operands of an instruction as the fields they stand in. -/
def operandsOf : Instr → Fields
  | .cls | .ret => noFields
  | .jp nnn | .call nnn | .ldI nnn | .jpV0 nnn => { noFields with nnn := nnn }
  | .seImm x nn | .sneImm x nn | .ldImm x nn | .addImm x nn | .rnd x nn => { noFields with x := x, nn := nn }
  | .drw x y n => { noFields with x := x, y := y, n := n }
  | .seReg x y | .ldReg x y | .or x y | .and x y | .xor x y | .addReg x y | .sub x y | .shr x y | .subn x y
  | .shl x y | .sneReg x y => { noFields with x := x, y := y }
  | .skp x | .sknp x | .ldVxDt x | .ldVxK x | .ldDtVx x | .ldStVx x | .addIVx x | .ldFVx x | .ldBVx x
  | .ldMemVx x | .ldVxMem x => { noFields with x := x }

/-- The one bound that a field's type does not carry (R93). -/
theorem wellFormed_iff (i : Instr) : i.WellFormed ↔ (operandsOf i).n < 16 := by
  cases i with
  | drw x y n => exact decide_eq_true_iff
  | _ => exact ⟨fun _ => Nat.zero_lt_succ 15, fun _ => rfl⟩

/-- A row follows a format: its mask is the format's, its value sets no bit outside the mask, and what it builds has the
format's fields as operands and the format's word. -/
structure HasFormat (φ : Format) (r : OpcodeRow) : Prop where
  mask             : r.mask = φ.mask
  accepts_value    : r.accepts r.value = true
  encode_build     : ∀ f, encode (r.build f) = φ.word r.value.toNat f
  build_only       : ∀ f, r.build (φ.only f) = r.build f
  operandsOf_build : ∀ f, operandsOf (r.build f) = φ.only f

/-- The formats of the 34 rows, in the order of R96. -/
def rowFormats : List Format :=
  [.fixed, .fixed, .nnn, .nnn, .xnn, .xnn, .xy, .xnn, .xnn,
   .xy, .xy, .xy, .xy, .xy, .xy, .xy, .xy, .xy,
   .xy, .nnn, .nnn, .xnn, .xyn, .x, .x,
   .x, .x, .x, .x, .x, .x, .x, .x, .x]

theorem opcodeTable_formats : List.Forall₂ HasFormat rowFormats opcodeTable := by
  repeat' constructor
  all_goals exact fun _ => rfl

theorem hasFormat_of_mem {r : OpcodeRow} (hr : r ∈ opcodeTable) : ∃ φ, HasFormat φ r := by
  obtain ⟨k, hk, rfl⟩ := List.mem_iff_getElem.mp hr
  have hlen := opcodeTable_formats.length_eq
  exact ⟨rowFormats[k], opcodeTable_formats.get (hlen ▸ hk) hk⟩

/-- The row at an instruction's place builds it from its operands. -/
theorem exists_row_build (i : Instr) : ∃ r ∈ opcodeTable, r.build (operandsOf i) = i := by
  have h : (opcodeTable[MatchesItsRow.rowOf i]?).map (fun r => r.build (operandsOf i)) = some i := by
    cases i <;> rfl
  obtain ⟨r, hr, hb⟩ := Option.map_eq_some_iff.mp h
  exact ⟨r, List.mem_of_getElem? hr, hb⟩

namespace HasFormat
variable {φ : Format} {r : OpcodeRow}

/-- Which opcodes a row accepts, in the one shape that every mask of R92 has. -/
theorem accepts_iff_eq_value (h : HasFormat φ r) (op : Word) :
    r.accepts op = true ↔ op.toNat / 4096 * 4096 + op.toNat % φ.low = r.value.toNat := by
  cases φ with
  | fixed => rw [accepts_FFFF h.mask, Format.low, Nat.div_add_mod']
  | nnn | xnn | xyn => rw [accepts_F000 h.mask, Format.low, Nat.mod_one, Nat.add_zero]
  | xy => exact accepts_F00F h.mask op
  | x => exact accepts_F0FF h.mask op

/-- Below its leading nibble a row's value has its low digits and nothing else. -/
theorem value_mod (h : HasFormat φ r) : r.value.toNat % 4096 = r.value.toNat % φ.low := by
  have hv := (h.accepts_iff_eq_value _).mp h.accepts_value
  omega

/-- A row accepts the opcodes with its leading nibble and its low digits (R92, R94). -/
theorem accepts_iff (h : HasFormat φ r) (op : Word) :
    r.accepts op = true ↔
      op.toNat / 4096 = r.value.toNat / 4096 ∧ op.toNat % φ.low = r.value.toNat % φ.low := by
  have hv := h.value_mod
  have hop := φ.mod_low_lt op.toNat
  have hval := φ.mod_low_lt r.value.toNat
  rw [h.accepts_iff_eq_value]
  omega

theorem toNat_word (h : HasFormat φ r) (f : Fields) :
    (φ.word r.value.toNat f).toNat = r.value.toNat + φ.place f := by
  have hv := h.value_mod
  have hlt := r.value.isLt
  cases φ with
  | fixed => exact Nat.mod_eq_of_lt hlt
  | nnn => exact toNat_wordNNN f.nnn (by simp only [Format.low] at hv; omega)
  | xnn =>
    rw [Format.word, toNat_wordXNN f.x f.nn (by simp only [Format.low] at hv; omega), Format.place, Nat.add_assoc]
  | xyn =>
    rw [Format.word, toNat_wordXYN f.x f.y f.n (by simp only [Format.low] at hv; omega), Format.place]
    omega
  | xy =>
    rw [Format.word, toNat_wordXY f.x f.y (by simp only [Format.low] at hv; omega), Format.place, Nat.add_assoc]
  | x => exact toNat_wordX f.x (by simp only [Format.low] at hv; omega)

theorem accepts_word (h : HasFormat φ r) (f : Fields) : r.accepts (φ.word r.value.toNat f) = true := by
  have hv := h.value_mod
  rw [h.accepts_iff, h.toNat_word]
  cases φ with
  | fixed | nnn | xnn | xyn | xy | x =>
    simp only [Format.low, Format.place] at hv ⊢
    omega

/-- The fields used are read back from the word they were placed in (R91, R104). -/
theorem only_fieldsOf_word (h : HasFormat φ r) {f : Fields} (hn : f.n < 16) :
    φ.only (fieldsOf (φ.word r.value.toNat f)) = φ.only f := by
  have hv := h.value_mod
  have hw := h.toNat_word f
  generalize φ.word r.value.toNat f = w at hw ⊢
  cases φ with
  | fixed => rfl
  | nnn | xnn | xyn | xy | x =>
    simp only [Format.only, Fields.mk.injEq, Fin.ext_iff, ← BitVec.toNat_inj, fieldsOf_x, fieldsOf_y, fieldsOf_n,
      fieldsOf_nn, fieldsOf_nnn, true_and, and_true]
    simp only [Format.low, Format.place] at hv hw
    omega

/-- An opcode that a row accepts is the row's value with the opcode's own fields placed on it (R91, R104). -/
theorem word_fieldsOf (h : HasFormat φ r) {op : Word} (ha : r.accepts op = true) :
    φ.word r.value.toNat (fieldsOf op) = op := by
  have hv := h.value_mod
  have hop := (h.accepts_iff op).mp ha
  apply BitVec.eq_of_toNat_eq
  rw [h.toNat_word]
  cases φ with
  | fixed | nnn | xnn | xyn | xy | x =>
    simp only [Format.low, Format.place, fieldsOf_x, fieldsOf_y, fieldsOf_n, fieldsOf_nn, fieldsOf_nnn] at hv hop ⊢
    omega

/-- What a row builds from the fields of an opcode is an instruction of the machine (R93). -/
theorem wellFormed_build (h : HasFormat φ r) (op : Word) : (r.build (fieldsOf op)).WellFormed := by
  rw [wellFormed_iff, h.operandsOf_build]
  cases φ with
  | xyn => rw [Format.only, fieldsOf_n]; exact Nat.mod_lt _ (by decide)
  | fixed | nnn | xnn | xy | x => exact Nat.zero_lt_succ 15

end HasFormat

/-! ### Decode and encode (R91, R92, R104) -/

/-- The row of an instruction accepts its word, and builds it from the fields of that word. -/
theorem decodeWord_encode {i : Instr} (hi : i.WellFormed) : decodeWord (encode i) = .ok i := by
  obtain ⟨r, hr, hb⟩ := exists_row_build i
  obtain ⟨φ, h⟩ := hasFormat_of_mem hr
  have he : encode i = φ.word r.value.toNat (operandsOf i) := by rw [← h.encode_build, hb]
  have hf := h.only_fieldsOf_word ((wellFormed_iff i).mp hi)
  rw [he, decodeWord_of_accepts hr (h.accepts_word _), ← h.build_only, hf, h.build_only, hb]

/-- The bytes of a word decode as the word does, whatever follows (R64, R90). -/
theorem decode_wordBytes (op : Word) (rest : List Byte) :
    decode (wordBytes op ++ rest) = (decodeWord op).map (fun i => (i, rest)) := by
  have hop : op.extractLsb' 8 8 ++ op.extractLsb' 0 8 = op := by
    apply BitVec.eq_of_toNat_eq
    rw [Machine.toNat_append_bytes]
    simp only [BitVec.extractLsb'_toNat, Nat.shiftRight_eq_div_pow, Nat.reducePow]
    omega
  simp only [decode, wordBytes, List.cons_append, List.nil_append, hop]
  cases decodeWord op <;> rfl

/-- Settles O2: the bytes are those of the instruction's word, and `decodeWord_encode` decodes that. -/
theorem decodeOfEncodeGivesTheInstructionBack : Obligations.DecodeOfEncodeGivesTheInstructionBack := by
  intro i rest hi
  rw [encodeBytes, decode_wordBytes, decodeWord_encode hi]
  rfl

/-- Settles O3: a row that accepts the word fixes the bits that its fields leave out. -/
theorem encodeOfDecodeGivesTheWordBack : Obligations.EncodeOfDecodeGivesTheWordBack := by
  intro op i hd
  obtain ⟨r, hr, ha, rfl⟩ := accepts_of_decodeWord hd
  obtain ⟨φ, h⟩ := hasFormat_of_mem hr
  exact ⟨h.wellFormed_build op, by rw [h.encode_build, h.word_fieldsOf ha]⟩

/-! ### The table (R97) -/

/-- Settles O4: of two rows that accept one opcode, no bit that both masks cover could differ. -/
theorem noOpcodeMatchesTwoTableEntries : Obligations.NoOpcodeMatchesTwoTableEntries := by
  intro op
  have hd := opcodeTable_differ.filter (fun r => r.accepts op)
  have ha : ∀ r ∈ opcodeTable.filter (fun r => r.accepts op), r.accepts op = true :=
    fun r hr => (List.mem_filter.mp hr).2
  generalize opcodeTable.filter (fun r => r.accepts op) = accepting at hd ha ⊢
  match accepting with
  | [] | [_] => simp
  | r :: q :: rest =>
    have hrq : RowsDiffer r q := List.rel_of_pairwise_cons hd List.mem_cons_self
    exact (not_both_accept hrq (ha r (by simp)) (ha q (by simp))).elim

/-! ### Legal and illegal opcodes (R98, R99) -/

/-- The mask tells where the fixed low digits stand: below the leading nibble it is `000`, `00F`, `0FF` or `FFF`. -/
theorem HasFormat.low_eq {φ : Format} {r : OpcodeRow} (h : HasFormat φ r) : φ.low = r.mask.toNat % 4096 + 1 := by
  rw [h.mask]
  cases φ <;> rfl

/-- The opcode has the row's leading nibble and its fixed low digits. -/
def SameDigits (r : OpcodeRow) (op : Word) : Prop :=
  op.toNat / 4096 = r.value.toNat / 4096 ∧
    op.toNat % (r.mask.toNat % 4096 + 1) = r.value.toNat % (r.mask.toNat % 4096 + 1)

theorem accepts_iff_sameDigits {r : OpcodeRow} (hr : r ∈ opcodeTable) (op : Word) :
    r.accepts op = true ↔ SameDigits r op := by
  obtain ⟨φ, h⟩ := hasFormat_of_mem hr
  rw [h.accepts_iff, h.low_eq, SameDigits]

theorem fieldsOf_nn_eq_iff (op : Word) (b : Byte) : (fieldsOf op).nn = b ↔ op.toNat % 256 = b.toNat := by
  rw [← BitVec.toNat_inj, fieldsOf_nn]

/-- A `FIXED` opcode is the only one with its digits. -/
theorem eq_value_of_sameDigits {r : OpcodeRow} {op : Word} (hm : r.mask = 0xFFFF#16) (h : SameDigits r op) :
    op = r.value := by
  obtain ⟨hc, hl⟩ := h
  rw [hm] at hl
  exact BitVec.eq_of_toNat_eq (by simp only [BitVec.reduceToNat, Nat.reduceMod, Nat.reduceAdd] at hl; omega)

/-- R98 takes the branch of a row by the digits of its value: row by row, the first level compares the leading nibble,
the second the low digits. -/
theorem perfectDecode_of_sameDigits {r : OpcodeRow} (hr : r ∈ opcodeTable) {op : Word} (h : SameDigits r op) :
    perfectDecode op = some (r.build (fieldsOf op)) := by
  fin_cases hr
  · rw [eq_value_of_sameDigits rfl h]; rfl
  · rw [eq_value_of_sameDigits rfl h]; rfl
  all_goals
    obtain ⟨hc, hl⟩ := h
    simp only [BitVec.reduceToNat, Nat.reduceDiv, Nat.reduceMod, Nat.reduceAdd] at hc hl
    simp [perfectDecode, perfectDecodeAlu, perfectDecodeF, fieldsOf_nn_eq_iff, hc, hl]

theorem decodeWord_error_iff (op : Word) :
    decodeWord op = .error (.unimplementedInstruction op) ↔ ∀ r ∈ opcodeTable, ¬ SameDigits r op := by
  constructor
  · intro h r hr
    rw [← accepts_iff_sameDigits hr, (decodeWord_error_op h).2 r hr]
    exact Bool.false_ne_true
  · intro h
    refine decodeWord_error fun r hr => ?_
    rw [Bool.eq_false_iff, ne_eq, accepts_iff_sameDigits hr]
    exact h r hr

/-- Settles O6: nibble by nibble, the digits of the rows and the digits of R99 are complementary. -/
theorem illegalOpcodesAreExactlyThoseListed : Obligations.IllegalOpcodesAreExactlyThoseListed := by
  intro op
  have hk : op.toNat / 4096 < 16 := Nat.div_lt_of_lt_mul op.isLt
  have hn : op.toNat % 16 < 16 := Nat.mod_lt _ (by decide)
  have hzero : op.toNat / 4096 = 0 → op.toNat % 4096 = op.toNat := by omega
  rw [decodeWord_error_iff]
  simp only [opcodeTable, opcodeRowsControl, opcodeRowsAlu, opcodeRowsMiddle, opcodeRowsF, List.forall_mem_append,
    List.forall_mem_cons, SameDigits, BitVec.reduceToNat, Nat.reduceMod, Nat.reduceAdd, Nat.reduceDiv, Nat.mod_one]
  generalize op.toNat / 4096 = k at hk hzero ⊢
  generalize op.toNat % 16 = n at hn ⊢
  interval_cases k
  -- nibble 8 lists the low digits that have no row, so its case goes digit by digit
  pick_goal 9
  · interval_cases n <;> simp
  · simp [hzero rfl]
  all_goals simp

/-- An opcode that the scan rejects falls through every level of R98. -/
theorem perfectDecode_of_illegal {op : Word} (h : decodeWord op = .error (.unimplementedInstruction op)) :
    perfectDecode op = none := by
  rcases (illegalOpcodesAreExactlyThoseListed op).mp h with
    ⟨hc, hcls, hret⟩ | ⟨hc, hn⟩ | ⟨hc, hn⟩ | ⟨hc, hn⟩ | ⟨hc, hnn⟩ | ⟨hc, hnn⟩
  · have hcls' : op ≠ 0x00E0#16 := ne_of_apply_ne BitVec.toNat hcls
    have hret' : op ≠ 0x00EE#16 := ne_of_apply_ne BitVec.toNat hret
    simp only [perfectDecode, fieldsOf_c, hc]
    simp [hcls', hret']
  · simp [perfectDecode, hc, hn]
  · simp only [List.mem_cons, List.not_mem_nil, or_false] at hn
    rcases hn with hn | hn | hn | hn | hn | hn | hn
    all_goals simp [perfectDecode, perfectDecodeAlu, hc, hn]
  · simp [perfectDecode, hc, hn]
  · simp only [List.mem_cons, List.not_mem_nil, or_false, not_or] at hnn
    simp [perfectDecode, hc, hnn, fieldsOf_nn_eq_iff]
  · simp only [perfectDecode, fieldsOf_c, hc, perfectDecodeF, fieldsOf_nn]
    split <;> simp_all

/-- Settles O5: a row that accepts the opcode is the branch R98 takes, and an illegal opcode takes none. -/
theorem perfectDecodeEqualsTableScan : Obligations.PerfectDecodeEqualsTableScan := by
  intro op
  cases hd : decodeWord op with
  | ok i =>
    obtain ⟨r, hr, ha, rfl⟩ := accepts_of_decodeWord hd
    rw [perfectDecode_of_sameDigits hr ((accepts_iff_sameDigits hr op).mp ha)]
  | error e =>
    obtain ⟨rfl, -⟩ := decodeWord_error_op hd
    rw [perfectDecode_of_illegal hd]

/-- Settles O1: each word by running the decoder on it. -/
theorem specWordsDecodeAsTheSpecNamesThem : Obligations.SpecWordsDecodeAsTheSpecNamesThem := by
  unfold Obligations.SpecWordsDecodeAsTheSpecNamesThem
  decide

end Sys2Proof.Encoding
end

section
/-! PROOFS. The cycle and its ports: the tick as arithmetic, a cycle from its handler, what the modes without a cycle
do, and which transactions a handler makes. -/

namespace Sys2Proof.Machine

/-! ### The tick (R137, R138, R147) -/

/-- A timer taken one toward 0 is its number less one, floored at 0. -/
theorem timer_down_one (b : Byte) : (if b = 0 then 0 else b - 1) = BitVec.ofNat 8 (b.toNat - 1) := by
  split
  · next h => rw [h]; rfl
  · bv_omega

/-- A timer after some ticks, as a number: no count below it is lost in the byte. -/
theorem toNat_timer_down (b : Byte) (n : Nat) : (BitVec.ofNat 8 (b.toNat - n)).toNat = b.toNat - n := by
  rw [BitVec.toNat_ofNat, Nat.mod_eq_of_lt (by omega)]

/-- The tick with the timers as numbers (R137, R138). -/
theorem State.tick_eq_toNat (s : State) :
    s.tick =
      { s with
        dt := BitVec.ofNat 8 (s.dt.toNat - 1), st := BitVec.ofNat 8 (s.st.toNat - 1),
        trace := s.trace ++ if s.st.toNat = 0 then [] else [.play] } := by
  have hst : s.st = 0 ↔ s.st.toNat = 0 := BitVec.toNat_inj.symm
  rw [State.tick_eq, timer_down_one, timer_down_one, if_congr hst rfl rfl]

theorem State.finishCycle_mode (s : State) : s.finishCycle.mode = s.mode := by rw [State.finishCycle_frame]

theorem State.finishCycle_getV (s : State) (r : Reg) : s.finishCycle.getV r = s.getV r := by
  rw [State.finishCycle_frame]; rfl

theorem State.finishCycle_dt (s : State) : s.finishCycle.dt.toNat = s.dt.toNat - 1 := by
  rw [State.finishCycle, State.tick_eq_toNat]
  exact toNat_timer_down _ 1

theorem State.finishCycle_st (s : State) : s.finishCycle.st.toNat = s.st.toNat - 1 := by
  rw [State.finishCycle, State.tick_eq_toNat]
  exact toNat_timer_down _ 1

/-- A completed cycle plays once more exactly where it found the sound timer nonzero (R138). -/
theorem State.finishCycle_count_play (s : State) :
    s.finishCycle.trace.count .play = s.trace.count .play + if s.st = 0 then 0 else 1 := by
  rw [s.finishCycle_events.1, List.count_append]
  split <;> rfl

/-- Settles O8: the tick, and then the sync, which can only clear the dirty flag. -/
theorem completedCycleTicksThenSyncs : Obligations.CompletedCycleTicksThenSyncs := by
  intro s
  rw [State.finishCycle, State.tick_eq_toNat]
  exact ⟨rfl, fun h => (Bool.and_eq_true_iff.mp h).1⟩

/-- Settles O9, by induction on the number of ticks: the last one plays exactly where the sound timer has not run out
before it. -/
theorem repeatedTicksCountDownAndPlay : Obligations.RepeatedTicksCountDownAndPlay := by
  intro n s
  induction n with
  | zero => simp
  | succ n ih =>
    have hplay : List.replicate (min n s.st.toNat) Event.play ++ (if s.st.toNat - n = 0 then [] else [.play]) =
        List.replicate (min (n + 1) s.st.toNat) .play := by
      by_cases h : s.st.toNat ≤ n
      · rw [if_pos (by omega), List.append_nil, Nat.min_eq_right h, Nat.min_eq_right (by omega)]
      · rw [if_neg (by omega), Nat.min_eq_left (by omega), Nat.min_eq_left (by omega), List.replicate_succ']
    rw [Function.iterate_succ_apply', ih, State.tick_eq_toNat]
    simp only [toNat_timer_down, Nat.sub_sub, List.append_assoc, hplay]

/-! ### Every step answers (R136, R256) -/

/-- A handler completes or takes its fault; either way it answers (R250, R256). -/
theorem exec_answers (i : Instr) (s : State) : ∃ t, exec i s = .next t := by
  rcases faults_or_none_raised i s with ⟨f, -, h⟩ | hn
  · exact ⟨_, h⟩
  · obtain ⟨t, h, -⟩ := exec_completes hn
    exact ⟨t, h⟩

theorem State.dispatch_answers (op : Word) (s : State) : ∃ t, s.dispatch op = .next t := by
  unfold State.dispatch
  cases decodeWord op with
  | ok i =>
    obtain ⟨t, h⟩ := exec_answers i s
    exact ⟨t.afterHandler, congrArg closeCycle h⟩
  | error e => exact ⟨_, rfl⟩

theorem State.proceed_answers (s : State) : ∃ t, s.proceed = .next t := by
  by_cases hr : s.mode = .running
  · by_cases hstop : s.stopReq = true
    · exact ⟨_, State.proceed_stop hr hstop⟩
    · rw [State.proceed_ready ⟨hr, Bool.not_eq_true _ ▸ hstop⟩]
      cases s.fetch16 s.pc.toNat with
      | ok op u => exact u.dispatch_answers op
      | raised f u => exact ⟨_, rfl⟩
  · exact ⟨_, State.proceed_idle hr⟩

/-- Settles O20: the block's own proceeding answers, and whatever the environment does lands on a state. -/
theorem everyStepAnswersANextState : Obligations.EveryStepAnswersANextState := by
  intro s
  obtain ⟨u, hu⟩ := s.dropInput.proceed_answers
  exact ⟨_, step_of_proceed hu⟩

/-! ### A cycle from its handler (R132, R136) -/

/-- A `Running` block that fetched an instruction has run its handler and what follows it. -/
theorem State.proceed_of_exec {s t : State} {i : Instr} (hr : s.Ready) (hf : s.Fetchable)
    (hi : decodeWord s.opcodeAtPc = .ok i) (he : exec i (s.afterFetch hf) = .next t) :
    s.proceed = .next t.afterHandler := by
  have hfetch : s.fetch16 s.pc.toNat = .ok s.opcodeAtPc (s.afterFetch hf) := State.fetch16_ok s hf
  rw [State.proceed_ready hr, hfetch]
  simp only [State.dispatch, hi, he, closeCycle]

/-- The same in a quiet step, in which only the input is taken before. -/
theorem step_quiet_of_exec {s t : State} {i : Instr} (hr : s.Ready) (hq : s.Quiet) (hf : s.Fetchable)
    (hi : decodeWord s.opcodeAtPc = .ok i)
    (he : exec i (State.afterFetch { s with inputs := s.inputs.tail } hf) = .next t) : step s = .next t.afterHandler :=
  step_quiet hq ((State.input_quiet hq).2 ▸
    State.proceed_of_exec (s := { s with inputs := s.inputs.tail }) hr hf hi he)

theorem State.afterHandler_eq (s : State) :
    s.afterHandler = if s.mode = .running then s.finishCycle else s := by
  rcases s.afterHandler_cases with ⟨hm, e⟩ | ⟨hm, e⟩
  · rw [if_pos hm, e]
  · rw [if_neg hm, e]

/-- Two bytes decode as the word they make, high byte first (R64, R90). -/
theorem decodeWord_of_decode_pair {hi lo : Byte} {i : Instr} (h : decode [hi, lo] = .ok (i, [])) :
    decodeWord (hi ++ lo) = .ok i := by
  simp only [decode] at h
  split at h
  · next j hd => cases h; exact hd
  · cases h

/-- Settles O7: the handler answers, and the cycle goes on from its answer. -/
theorem stepRunsTheDecodedInstruction : Obligations.StepRunsTheDecodedInstruction := by
  intro s hf i hr hd
  have hi : decodeWord s.opcodeAtPc = .ok i := decodeWord_of_decode_pair hd
  refine ⟨?_, fun hq t he => ?_⟩
  · obtain ⟨t, he⟩ := exec_answers i (s.dropInput.afterFetch hf)
    rw [he]
    exact step_of_proceed (State.proceed_of_exec (s := s.dropInput) hr hf hi he)
  · rw [step_quiet hq (State.proceed_of_exec (s := s.dropInput) hr hf hi he), State.afterHandler_eq]
    rfl

/-- The fetch plays nothing (R134). -/
theorem State.afterFetch_count_play {s : State} (h : s.Fetchable) :
    (s.afterFetch h).trace.count .play = s.trace.count .play := by
  simp [State.afterFetch]

/-- Settles O23: the three handlers leave the block `Running`, so the cycle's tick acts on what they left. -/
theorem timerLoadedIsTickedInTheSameCycle : Obligations.TimerLoadedIsTickedInTheSameCycle := by
  intro s x hr hq hf
  have hstep : ∀ {i t}, decodeWord s.opcodeAtPc = .ok i →
      exec i (State.afterFetch { s with inputs := s.inputs.tail } hf) = .next t → t.mode = .running →
      step s = .next t.finishCycle := fun hi he hm =>
    (step_quiet_of_exec hr hq hf hi he).trans (congrArg _ ((State.afterHandler_eq _).trans (if_pos hm)))
  refine ⟨fun hi => ?_, fun hi => ?_, fun hi => ?_⟩
  · exact ⟨_, hstep hi rfl hr.1, (State.finishCycle_mode _).trans hr.1, State.finishCycle_dt _⟩
  · refine ⟨_, hstep hi rfl hr.1, (State.finishCycle_mode _).trans hr.1, State.finishCycle_st _, ?_⟩
    exact (State.finishCycle_count_play _).trans (congrArg (· + _) (State.afterFetch_count_play hf))
  · refine ⟨_, hstep hi rfl hr.1, (State.finishCycle_mode _).trans hr.1, ?_, State.finishCycle_dt _⟩
    rw [State.finishCycle_getV]
    exact (State.getV_resultOnly ..).trans (if_pos rfl)

/-! ### The stop check, and the modes without a cycle (R132, R133, R141) -/

/-- Settles O13: the stop check is the whole of the cycle. -/
theorem stopCheckComesBeforeTheFetch : Obligations.StopCheckComesBeforeTheFetch := by
  intro s hr hstop hq
  rw [step_quiet hq (State.proceed_stop (s := s.dropInput) hr hstop), (State.input_quiet hq).2]
  rfl

/-- Settles O14: the block does nothing of itself, and nothing arrives. -/
theorem noCycleOutsideRunning : Obligations.NoCycleOutsideRunning := by
  intro s hm hq
  rw [step_quiet hq (State.proceed_idle (s := s.dropInput) hm), (State.input_quiet hq).2]

/-- During a key wait an arrival that is no key acts on the latch only (R129, R131, R141). -/
theorem State.arrive_awaitingKey {s : State} {kx : Reg} {a : Option Arrival} (hm : s.mode = .awaitingKey kx)
    (ha : ∀ code, a ≠ some (.key code)) :
    s.arrive a = { s with stopReq := s.stopReq || decide (a = some .closed) } := by
  by_cases hc : a = some .closed
  · rw [hc, State.arrive, State.onClosed_eq, if_neg (by simp [hm])]
    simp
  · have hs : s.arrive a = s := by
      match a with
      | none => rfl
      | some .closed => exact absurd rfl hc
      | some (.key code) => exact absurd rfl (ha code)
      | some .start => simp only [State.arrive, State.onStart, hm]
      | some (.hostFill cells) => simp only [State.arrive, State.onHostFill, hm]
      | some (.hostPicture fb dirty) => simp only [State.arrive, State.onHostPicture, hm]
    rw [hs]
    simp [hc]

/-- Settles O21: a waiting block does nothing of itself, and the arrival acts on the latch only. -/
theorem keyWaitFreezesTheMachine : Obligations.KeyWaitFreezesTheMachine := by
  intro s kx a rest hm hin ha
  obtain ⟨hinput, hdrop⟩ := State.input_listed hin
  have hidle : s.dropInput.proceed = .next s.dropInput := State.proceed_idle (by simp [hm])
  rw [step_of_proceed hidle, hinput, hdrop]
  exact congrArg _ (State.arrive_awaitingKey hm ha)

/-- The word of an instruction reads as it (R104). -/
theorem readsAs_of_encode {op : Nat} {i : Instr} (hi : i.WellFormed) (he : BitVec.ofNat 16 op = encode i) :
    ReadsAs op i := by
  rw [ReadsAs, he, Encoding.decodeWord_encode hi]

/-- Settles O53: the handler leaves the block `AwaitingKey`, so steps 4 and 5 do not follow; the fetch and the start of
the wait are not observable. -/
theorem keyWaitSuspendsTheCycle : Obligations.KeyWaitSuspendsTheCycle := by
  intro x s
  refine ⟨readsAs_of_encode rfl ?_, rfl, fun hf hr hq hi => ?_⟩
  · rw [encode, wordX, Nat.mul_comm]
  · have hstep := step_quiet_of_exec hr hq hf hi rfl
    rw [State.afterHandler_eq, if_neg (by simp)] at hstep
    exact ⟨_, hstep, rfl, by simp [State.observed, State.afterFetch, Event.observable], rfl⟩

/-! ### A reset inside a step (R142) -/

/-- Everything between two states of a step is in the trace: what the block did, and then what arrived. -/
theorem exists_trace_of_proceed {s u : State} (a : Option Arrival) (h : s.proceed = .next u) :
    ∃ es, (u.arrive a).trace = s.trace ++ es := by
  obtain ⟨es, hes⟩ := State.transacts_proceed h
  obtain ⟨fs, hfs, -, -⟩ := u.arrive_events a
  exact ⟨es ++ fs, by rw [hfs, hes.trace, List.append_assoc]⟩

/-- Settles O18: the reset keeps the first `done` of the transactions that the uninterrupted step made. -/
theorem resetKeepsWhatWasWritten : Obligations.ResetKeepsWhatWasWritten := by
  intro s t a done rest h
  obtain ⟨u, hu, ht⟩ := proceed_of_step h
  have ht : t = u.arrive a := ht
  obtain ⟨es, hes⟩ := exists_trace_of_proceed a hu
  have hreset : step { s with inputs := ⟨a, some done⟩ :: rest } =
      .next (interruptedReset done { s with inputs := rest } (u.arrive a)) := step_of_proceed hu
  have hsince : transactionsSince { s with inputs := rest } (u.arrive a) = es :=
    (congrArg _ hes).trans List.drop_left
  refine ⟨es.take done, es.drop done, _, hreset, ?_, ?_, ?_⟩
  · rw [ht, hes, List.append_assoc, List.take_append_drop]; rfl
  · rw [List.length_take, List.drop_eq_nil_iff]
    omega
  · rw [← hsince]
    exact ⟨rfl, rfl⟩

/-! ### Which handler makes which transaction (R121, R122, R125 to R128, R139) -/

theorem storeEvents_memWrite (a : Nat) (bs : List Byte) : ∀ e ∈ storeEvents a bs, ∃ k b, e = .memWrite k b := by
  induction bs generalizing a with
  | nil => simp [storeEvents]
  | cons b bs ih => simpa [storeEvents] using ih (a + 1)

theorem readEvents_memRead (s : State) (a count : Nat) : ∀ e ∈ readEvents s a count, ∃ k b, e = .memRead k b := by
  induction count generalizing a with
  | zero => simp [readEvents]
  | succ n ih => simpa [readEvents] using ih (a + 1)

/-- Settles O57: a fault makes no transaction, and those of a completed instruction stand in `Completes`. -/
theorem handlersUseThePortsAsListed : Obligations.HandlersUseThePortsAsListed := by
  intro i s t h
  rcases exec_cases h with ⟨f, -, rfl⟩ | ⟨-, hc⟩
  · exact ⟨[], (List.append_nil _).symm, by simp⟩
  cases i with
  | cls => cases h; exact ⟨[.dispClear], rfl, by simp⟩
  | skp x | sknp x => cases h; exact ⟨[.isKeyDown _ _], rfl, by simp⟩
  | rnd x nn => cases h; exact ⟨[.rand _], rfl, by simp⟩
  | ldVxK x => cases h; exact ⟨[.waitForAnyKey], rfl, by simp⟩
  | drw x y n =>
    obtain ⟨u, rfl, hu, -⟩ := hc
    obtain ⟨es, htrace, -, -, hdraw⟩ := hu.events
    refine ⟨es, htrace, fun e he => ?_⟩
    have hd := hdraw e he
    cases e with
    | memRead a b => exact .inl ⟨x, y, n, rfl⟩
    | dispGet px py b | dispSet px py b | dispMarkDirty => exact ⟨x, y, n, rfl⟩
    | _ => cases hd
  | ldBVx x | ldMemVx x =>
    obtain ⟨u, rfl, hu⟩ := hc
    refine ⟨_, congrArg State.trace hu.frame, fun e he => ?_⟩
    obtain ⟨k, b, rfl⟩ := storeEvents_memWrite _ _ e he
    exact ⟨x, by simp⟩
  | ldVxMem x =>
    obtain ⟨u, rfl, hu, -⟩ := hc
    refine ⟨_, congrArg State.trace hu, fun e he => ?_⟩
    obtain ⟨k, b, rfl⟩ := readEvents_memRead _ _ _ e he
    exact .inr ⟨x, rfl⟩
  | ret =>
    obtain ⟨rest, a, -, rfl⟩ := hc
    exact ⟨[], (List.append_nil _).symm, by simp⟩
  | call nnn =>
    obtain ⟨-, rfl⟩ := hc
    exact ⟨[], (List.append_nil _).symm, by simp⟩
  | _ => cases h; exact ⟨[], (List.append_nil _).symm, by simp⟩

end Sys2Proof.Machine
end

section
/-! PROOFS. Control flow (spec/41_control_flow.md): the jumps and the skips write `pc` and nothing else, and the call
and the return move one entry of the stack. -/

namespace Sys2Proof.Machine

/-! ### The words of the jumps and the skips (R92, R104) -/

theorem readsAs_wordXNN {value : Nat} {i : Instr} {x : Reg} {nn : Byte} (hi : i.WellFormed)
    (he : encode i = wordXNN value x nn) : ReadsAs (value + 256 * x.val + nn.toNat) i :=
  readsAs_of_encode hi (by rw [he, wordXNN, Nat.mul_comm 256])

theorem readsAs_wordXY {value : Nat} {i : Instr} {x y : Reg} (hi : i.WellFormed)
    (he : encode i = wordXY value x y) : ReadsAs (value + 256 * x.val + 16 * y.val) i :=
  readsAs_of_encode hi (by rw [he, wordXY, Nat.mul_comm 256, Nat.mul_comm 16])

/-! ### Jumps (R162, R168) -/

theorem onlyPc_setPc (w : Word) (s : State) : OnlyPc s (s.setPc w) := ⟨rfl, fun _ => rfl⟩

/-- Settles O29: the handler is one write of `pc`. -/
theorem jumpGoesToItsAddress : Obligations.JumpGoesToItsAddress := fun nnn s =>
  ⟨readsAs_of_encode rfl rfl, _, rfl, toNat_targetOf nnn, onlyPc_setPc _ s⟩

/-- A 12-bit address and a byte have a 16-bit sum, so `Bnnn` never wraps (R168). -/
theorem toNat_targetOf_add_zext16 (nnn : Addr12) (b : Byte) :
    (targetOf nnn + zext16 b).toNat = nnn.toNat + b.toNat := by
  rw [BitVec.toNat_add, toNat_targetOf, zext16, BitVec.toNat_setWidth]
  omega

/-- Settles O34: the handler is one write of `pc`, and the sum does not wrap. -/
theorem indexedJumpAddsV0 : Obligations.IndexedJumpAddsV0 := fun nnn s =>
  ⟨readsAs_of_encode rfl rfl, _, rfl, toNat_targetOf_add_zext16 nnn _, onlyPc_setPc _ s⟩

/-! ### Skips (R164 to R167) -/

/-- What an instruction does whose handler is a skip (R23). -/
theorem exec_skips {i : Instr} {s : State} {c : Bool} {p : Prop} [Decidable p] (he : exec i s = .next (s.skipIf c))
    (hc : c = true ↔ p) : ∃ t, exec i s = .next t ∧ OnlyPc s t ∧ PcMoved (if p then 4 else 2) s t :=
  ⟨_, he, onlyPc_setPc _ s, pcMoved_skipIf rfl hc⟩

/-- Settles O32: both handlers are skips, by an equality of bytes and by its opposite. -/
theorem immediateSkipsCompareAllEightBits : Obligations.ImmediateSkipsCompareAllEightBits := fun _ _ _ =>
  ⟨readsAs_wordXNN rfl rfl, readsAs_wordXNN rfl rfl, exec_skips rfl beq_iff_eq, exec_skips rfl bne_iff_ne⟩

/-- Settles O33: both handlers are skips, by an equality of registers and by its opposite. -/
theorem registerSkipsCompareTwoRegisters : Obligations.RegisterSkipsCompareTwoRegisters := fun _ _ _ =>
  ⟨readsAs_wordXY rfl rfl, readsAs_wordXY rfl rfl, exec_skips rfl beq_iff_eq, exec_skips rfl bne_iff_ne⟩

/-! ### Call and return (R161, R163, R169) -/

/-- The fault listed for an instruction is the whole of what it does (R250, R256). -/
theorem exec_of_raisedBy {i : Instr} {s : State} {cause : BitVec 3} {info : Word}
    (h : raisedBy i s = some (cause, info)) :
    exec i s = .next { s with mode := .faulted, cause := cause, info := info } := by
  rcases faults_or_none_raised i s with ⟨f, hf, he⟩ | hn
  · cases hf.symm.trans h
    exact he
  · cases hn.symm.trans h

theorem exec_ret_append {s : State} {rest : List Word} {a : Word} (h : s.stack = rest ++ [a]) :
    exec .ret s = .next (State.setPc (a + 2) { s with stack := rest }) := by
  obtain ⟨t, he, rest', a', h', rfl⟩ := exec_completes (i := .ret) (s := s) (by simp [raisedBy, h])
  obtain ⟨rfl, ha⟩ := List.append_inj' (h.symm.trans h') rfl
  cases ha
  exact he

theorem exec_call_below (nnn : Addr12) {s : State} (h : s.stack.length ≠ 16) :
    exec (.call nnn) s = .next (State.setPc (targetOf nnn) { s with stack := s.stack ++ [s.pc] }) := by
  obtain ⟨t, he, -, rfl⟩ := exec_completes (i := .call nnn) (if_neg h)
  exact he

/-- Settles O28: with a newest entry the return completes, and on an empty stack its fault is listed. -/
theorem returnPopsAndSkipsTheCall : Obligations.ReturnPopsAndSkipsTheCall :=
  ⟨readsAs_of_encode rfl rfl,
    fun _ _ a h => ⟨_, exec_ret_append h, BitVec.toNat_add a 2, rfl, fun _ => rfl⟩,
    fun _ h => exec_of_raisedBy (if_pos h)⟩

/-- Settles O30: below 16 entries the call completes, and on 16 its fault is listed. -/
theorem callPushesItsOwnAddress : Obligations.CallPushesItsOwnAddress := fun nnn _ =>
  ⟨readsAs_of_encode rfl rfl,
    fun h => ⟨_, exec_call_below nnn h, toNat_targetOf nnn, rfl, fun _ => rfl⟩,
    fun h => exec_of_raisedBy (if_pos h)⟩

/-- Settles O31: the entry that the call appends is the newest one, so the return takes it off again. -/
theorem returnComesBackAfterTheCall : Obligations.ReturnComesBackAfterTheCall := by
  intro nnn s h
  have hret : exec .ret (State.setPc (targetOf nnn) { s with stack := s.stack ++ [s.pc] }) =
      .next (s.setPc (s.pc + 2)) := exec_ret_append rfl
  exact ⟨_, _, exec_call_below nnn h, toNat_targetOf nnn, hret, onlyPc_setPc _ s, BitVec.toNat_add s.pc 2⟩

end Sys2Proof.Machine
end

section
/-! PROOFS. Register load, arithmetic and logic (spec/42_alu.md): every handler ends in `resultOnly` or in
`flagThenResult`, whose register writes and frame are said once; what is left of each rule is one equation of bytes. -/

namespace Sys2Proof.Machine

/-! ### The two ends of a handler (R180) -/

theorem State.getV_resultOnly_self (x : Reg) (b : Byte) (s : State) : (s.resultOnly x b).getV x = b := by
  rw [State.getV_resultOnly, if_pos rfl]

/-- With `x` = 15 too: the result is written last (D8). -/
theorem State.getV_flagThenResult_self (x : Reg) (f b : Byte) (s : State) : (s.flagThenResult x f b).getV x = b := by
  rw [State.getV_flagThenResult, if_pos rfl]

theorem State.resultOnly_frame (x : Reg) (b : Byte) (s : State) :
    OnlyPcAndRegs (· = x) s (s.resultOnly x b) ∧ PcMoved 2 s (s.resultOnly x b) :=
  ⟨⟨rfl, fun _ hk => (State.getV_resultOnly ..).trans (if_neg hk), fun _ => rfl⟩, pcMoved_advance rfl⟩

theorem State.flagThenResult_frame (x : Reg) (f b : Byte) (s : State) :
    OnlyPcAndRegs (fun k => k = x ∨ k = 15) s (s.flagThenResult x f b) ∧ PcMoved 2 s (s.flagThenResult x f b) :=
  ⟨⟨rfl, fun _ hk => State.getV_flagThenResult_other (hk ∘ .inl) (hk ∘ .inr), fun _ => rfl⟩, pcMoved_advance rfl⟩

/-- What an instruction does whose handler writes a result and no flag. -/
theorem exec_resultOnly {i : Instr} {x : Reg} {b : Byte} {s : State} (he : exec i s = .next (s.resultOnly x b)) :
    ∃ t, exec i s = .next t ∧ t.getV x = b ∧ OnlyPcAndRegs (· = x) s t ∧ PcMoved 2 s t :=
  ⟨_, he, State.getV_resultOnly_self .., State.resultOnly_frame ..⟩

/-- What an instruction does whose handler writes a flag and then a result. -/
theorem exec_flagThenResult {i : Instr} {x : Reg} {f b : Byte} {s : State}
    (he : exec i s = .next (s.flagThenResult x f b)) :
    ∃ t, exec i s = .next t ∧ t.getV x = b ∧ (x ≠ 15 → t.getV 15 = f) ∧
      OnlyPcAndRegs (fun k => k = x ∨ k = 15) s t ∧ PcMoved 2 s t :=
  ⟨_, he, State.getV_flagThenResult_self .., fun hx => State.getV_flagThenResult_VF hx.symm,
    State.flagThenResult_frame ..⟩

/-! ### The results and the flags as numbers (R182, R187 to R191) -/

theorem toNat_sumByte (a b : Byte) : (sumByte a b).toNat = (a.toNat + b.toNat) % 256 := BitVec.toNat_ofNat ..

theorem toNat_differenceByte (a b : Byte) : (differenceByte a b).toNat = (a.toNat + 256 - b.toNat) % 256 :=
  BitVec.toNat_ofNat ..

theorem boolByte_decide (p : Prop) [Decidable p] : boolByte (decide p) = if p then 1 else 0 := by
  rw [boolByte, if_congr decide_eq_true_iff rfl rfl]

theorem toNat_boolByte (b : Bool) : (boolByte b).toNat = b.toNat := by cases b <;> rfl

theorem toNat_shiftedRight (a : Byte) : (shiftedRight a).toNat = a.toNat / 2 := by
  rw [shiftedRight, BitVec.toNat_ushiftRight, Nat.shiftRight_one]

theorem toNat_shiftedLeft (a : Byte) : (shiftedLeft a).toNat = a.toNat * 2 % 256 := by
  rw [shiftedLeft, BitVec.toNat_shiftLeft, Nat.shiftLeft_eq]

theorem toNat_getLsbD (a : Byte) (j : Nat) : (a.getLsbD j).toNat = a.toNat / 2 ^ j % 2 := by
  rw [BitVec.getLsbD, Nat.toNat_testBit]

theorem toNat_lowBitFlag (a : Byte) : (lowBitFlag a).toNat = a.toNat % 2 := by
  rw [lowBitFlag, toNat_boolByte, toNat_getLsbD, Nat.pow_zero, Nat.div_one]

/-- A byte is below 256, so its quotient by 128 is its top bit. -/
theorem toNat_highBitFlag (a : Byte) : (highBitFlag a).toNat = a.toNat / 128 := by
  rw [highBitFlag, toNat_boolByte, toNat_getLsbD]
  omega

/-! ### Load, copy, immediate add and logic (R181 to R186) -/

/-- Settles O35: both handlers write a result and no flag; the second result is the sum of two bytes. -/
theorem immediateLoadAndAddWriteOnlyVx : Obligations.ImmediateLoadAndAddWriteOnlyVx := by
  intro x nn s
  refine ⟨readsAs_wordXNN rfl rfl, readsAs_wordXNN rfl rfl, exec_resultOnly rfl, ?_⟩
  obtain ⟨t, he, hv, hframe⟩ := exec_resultOnly (i := .addImm x nn) (s := s) rfl
  exact ⟨t, he, by rw [hv, toNat_sumByte], hframe⟩

/-- Settles O36: the four handlers write a result and no flag, and the logic of bytes is that of their bits. -/
theorem copyAndLogicWriteOnlyVx : Obligations.CopyAndLogicWriteOnlyVx := by
  intro x y s
  refine ⟨readsAs_wordXY rfl rfl, readsAs_wordXY rfl rfl, readsAs_wordXY rfl rfl, readsAs_wordXY rfl rfl,
    exec_resultOnly rfl, ?_, ?_, ?_⟩
  · obtain ⟨t, he, hv, hframe⟩ := exec_resultOnly (i := .or x y) (s := s) rfl
    exact ⟨t, he, fun j _ => by rw [hv, BitVec.getLsbD_or], hframe⟩
  · obtain ⟨t, he, hv, hframe⟩ := exec_resultOnly (i := .and x y) (s := s) rfl
    exact ⟨t, he, fun j _ => by rw [hv, BitVec.getLsbD_and], hframe⟩
  · obtain ⟨t, he, hv, hframe⟩ := exec_resultOnly (i := .xor x y) (s := s) rfl
    exact ⟨t, he, fun j _ => by rw [hv, BitVec.getLsbD_xor], hframe⟩

/-! ### Register add, subtractions and shifts (R187 to R191) -/

/-- Settles O37: the handler writes the carry and then the sum. -/
theorem registerAddReportsTheCarry : Obligations.RegisterAddReportsTheCarry := by
  intro x y s
  obtain ⟨t, he, hv, hf, hframe⟩ := exec_flagThenResult (i := .addReg x y) (s := s) rfl
  exact ⟨readsAs_wordXY rfl rfl, t, he, by rw [hv, toNat_sumByte],
    fun hx => by rw [hf hx, carryFlag, boolByte_decide], hframe⟩

/-- What an instruction does whose handler subtracts `b` from `a` into `Vx` (R188, R190). -/
theorem exec_subtracts {i : Instr} {x : Reg} {a b : Byte} {s : State}
    (h : exec i s = .next (s.flagThenResult x (greaterFlag a b) (differenceByte a b))) :
    ∃ t, exec i s = .next t ∧ (t.getV x).toNat = (a.toNat + 256 - b.toNat) % 256 ∧
      (x ≠ 15 → t.getV 15 = if b.toNat < a.toNat then 1 else 0) ∧
      OnlyPcAndRegs (fun k => k = x ∨ k = 15) s t ∧ PcMoved 2 s t := by
  obtain ⟨t, he, hv, hf, hframe⟩ := exec_flagThenResult h
  exact ⟨t, he, by rw [hv, toNat_differenceByte], fun hx => by rw [hf hx, greaterFlag, boolByte_decide], hframe⟩

/-- Settles O38: both handlers subtract, `Vy` from `Vx` and `Vx` from `Vy`. -/
theorem subtractionsReportStrictlyGreater : Obligations.SubtractionsReportStrictlyGreater := fun _ _ _ =>
  ⟨readsAs_wordXY rfl rfl, readsAs_wordXY rfl rfl, exec_subtracts rfl, exec_subtracts rfl⟩

/-- Settles O39: the handlers write the bit shifted out, at the right and at the left, and then the shifted byte. -/
theorem shiftsReportTheBitShiftedOut : Obligations.ShiftsReportTheBitShiftedOut := by
  intro x y s
  refine ⟨readsAs_wordXY rfl rfl, readsAs_wordXY rfl rfl, ?_, ?_⟩
  · obtain ⟨t, he, hv, hf, hframe⟩ := exec_flagThenResult (i := .shr x y) (s := s) rfl
    exact ⟨t, he, by rw [hv, toNat_shiftedRight], fun hx => by rw [hf hx, toNat_lowBitFlag], hframe⟩
  · obtain ⟨t, he, hv, hf, hframe⟩ := exec_flagThenResult (i := .shl x y) (s := s) rfl
    exact ⟨t, he, by rw [hv, toNat_shiftedLeft], fun hx => by rw [hf hx, toNat_highBitFlag], hframe⟩

end Sys2Proof.Machine
end

section
/-! PROOFS. Index register and memory (spec/43_index_memory.md): three handlers are one write of `I`; the other three
take the fault listed for them, or complete as a run of stores or of loads from `I` up. -/

namespace Sys2Proof.Machine

theorem readsAs_wordX {value : Nat} {i : Instr} {x : Reg} (hi : i.WellFormed) (he : encode i = wordX value x) :
    ReadsAs (value + 256 * x.val) i :=
  readsAs_of_encode hi (by rw [he, wordX, Nat.mul_comm 256])

/-! ### The index register (R201 to R203) -/

/-- What an instruction does whose handler writes `I`. -/
theorem exec_setI {i : Instr} {s : State} {w : Word} {n : Nat} (he : exec i s = .next (s.setI w).advance)
    (hw : w.toNat = n) :
    ∃ t, exec i s = .next t ∧ t.i.toNat = n ∧ t = { s with i := t.i, pc := t.pc } ∧ SameMemory s t ∧ PcMoved 2 s t :=
  ⟨_, he, hw, rfl, fun _ => rfl, pcMoved_advance rfl⟩

/-- The sum of `Fx1E` wraps at 16 bits (R202). -/
theorem toNat_add_zext16 (w : Word) (b : Byte) : (w + zext16 b).toNat = (w.toNat + b.toNat) % 65536 := by
  rw [BitVec.toNat_add, zext16, BitVec.toNat_setWidth_of_le (by decide)]

/-- Five times a byte fits in 16 bits, so `Fx29` never wraps (R203). -/
theorem toNat_glyphAddress (b : Byte) : (BitVec.ofNat 16 (b.toNat * Config.glyphBytes)).toNat = b.toNat * 5 := by
  rw [BitVec.toNat_ofNat, Config.glyphBytes]
  omega

/-- Settles O40: each handler is one write of `I`, and what is left is the written word as a number. -/
theorem indexRegisterInstructionsWriteOnlyI : Obligations.IndexRegisterInstructionsWriteOnlyI := fun nnn _ _ =>
  ⟨readsAs_of_encode rfl rfl, readsAs_wordX rfl rfl, readsAs_wordX rfl rfl,
    exec_setI rfl (toNat_targetOf nnn), exec_setI rfl (toNat_add_zext16 _ _), exec_setI rfl (toNat_glyphAddress _)⟩

/-! ### Stores (R204, R205) -/

namespace StoredRun
variable {bs : List Byte} {s u : State}

theorem byteAt_base_add (h : StoredRun bs s u) {k : Nat} (hk : k < bs.length) : u.byteAt (s.base + k) = bs[k] := by
  rw [h.byteAt, dif_pos (by omega)]
  simp

theorem byteAt_outside (h : StoredRun bs s u) {a : Nat} (ha : a < s.base ∨ s.base + bs.length ≤ a) :
    u.byteAt a = s.byteAt a := by
  rw [h.byteAt, dif_neg (by omega)]

/-- `I` and the registers are among what a store leaves (D21). -/
theorem advance_frame (h : StoredRun bs s u) :
    PcMoved 2 s u.advance ∧
      u.advance = { s with pc := u.advance.pc, mem := u.advance.mem, trace := u.advance.trace } := by
  rw [h.frame]
  exact ⟨pcMoved_advance rfl, rfl⟩

end StoredRun

/-- A digit of a byte is at most the byte, so it is stored as it is (R204). -/
theorem StoredRun.byteAt_digit {b : Byte} {s u : State} (h : StoredRun (decimalDigits b) s u) {k n : Nat} (hk : k < 3)
    (hd : (decimalDigits b)[k]'hk = BitVec.ofNat 8 n) (hn : n ≤ b.toNat) : (u.byteAt (s.base + k)).toNat = n := by
  rw [h.byteAt_base_add hk, hd, BitVec.toNat_ofNat, Nat.mod_eq_of_lt (Nat.lt_of_le_of_lt hn b.isLt)]

/-- Settles O41: inside memory the stored run is the three digits, and past its end the fault is listed. -/
theorem decimalStoreWritesThreeDigits : Obligations.DecimalStoreWritesThreeDigits := by
  intro x s
  refine ⟨readsAs_wordX rfl rfl, fun h => ?_, fun h => exec_of_raisedBy (if_pos h)⟩
  obtain ⟨t, he, u, rfl, hu⟩ := exec_completes (i := .ldBVx x) (s := s) (if_neg (Nat.not_le.mpr h))
  obtain ⟨hpc, hframe⟩ := hu.advance_frame
  exact ⟨_, he, hpc, hframe,
    hu.byteAt_digit (k := 0) (by decide) rfl (Nat.div_le_self ..),
    hu.byteAt_digit (k := 1) (by decide) rfl (Nat.le_trans (Nat.mod_le ..) (Nat.div_le_self ..)),
    hu.byteAt_digit (k := 2) (by decide) rfl (Nat.mod_le ..),
    fun a ha => hu.byteAt_outside ha⟩

/-- Settles O42: inside memory the stored run is the range of registers, and past its end the fault is listed. -/
theorem registerStoreWritesTheRange : Obligations.RegisterStoreWritesTheRange := by
  intro x s
  refine ⟨readsAs_wordX rfl rfl, fun h => ?_, fun h => exec_of_raisedBy (if_pos h)⟩
  obtain ⟨t, he, u, rfl, hu⟩ := exec_completes (i := .ldMemVx x) (s := s) (if_neg (Nat.not_le.mpr h))
  obtain ⟨hpc, hframe⟩ := hu.advance_frame
  refine ⟨_, he, hpc, hframe, fun k hk => hu.byteAt_regRange hk, fun a ha => hu.byteAt_outside ?_⟩
  rw [State.length_regRange]
  exact ha

/-! ### Loads (R206) -/

/-- Settles O43: inside memory the load completes with the range read, and past its end the fault is listed. -/
theorem registerLoadReadsTheRange : Obligations.RegisterLoadReadsTheRange := by
  intro x s
  refine ⟨readsAs_wordX rfl rfl, fun h => ?_, fun h => exec_of_raisedBy (if_pos h)⟩
  obtain ⟨t, he, u, rfl, hu, hv⟩ := exec_completes (i := .ldVxMem x) (s := s) (if_neg (Nat.not_le.mpr h))
  refine ⟨_, he, pcMoved_advance ?_, ?_, fun a => ?_, hv⟩
  · rw [hu]
  · rw [hu]; rfl
  · rw [hu]; rfl

end Sys2Proof.Machine
end

section
/-! PROOFS. Random source and timers (spec/44_timer_random.md): the random byte and the delay timer reach `Vx` through
`resultOnly`, the first after one draw; the two timer loads are one write of a timer each. -/

namespace Sys2Proof.Machine

/-! ### The random source (R221) -/

/-- Settles O46: the handler draws one byte and writes its conjunction with `nn`, which is taken bit by bit. -/
theorem randomByteComesUnderTheMask : Obligations.RandomByteComesUnderTheMask := by
  intro x nn s
  obtain ⟨⟨-, hother, hmem⟩, hpc⟩ := State.resultOnly_frame x (s.randAnswer &&& nn) s.randDraw
  refine ⟨readsAs_wordXNN rfl rfl, _, s.randAnswer, rfl, rfl, fun j _ => ?_, hother, rfl, hmem, hpc⟩
  rw [State.getV_resultOnly_self, BitVec.getLsbD_and, Bool.and_comm]

/-! ### The timers (R222 to R224) -/

/-- Settles O47: `Fx07` writes the delay timer as a result with no flag, and `Fx15` and `Fx18` are one write of a timer
and the advance. -/
theorem timerInstructionsMoveOneByte : Obligations.TimerInstructionsMoveOneByte := fun _ _ =>
  ⟨readsAs_wordX rfl rfl, readsAs_wordX rfl rfl, readsAs_wordX rfl rfl,
    exec_resultOnly rfl,
    ⟨_, rfl, rfl, fun _ => rfl, pcMoved_advance rfl⟩,
    ⟨_, rfl, rfl, fun _ => rfl, pcMoved_advance rfl⟩⟩

end Sys2Proof.Machine
end

section
/-! PROOFS. Display and keypad (spec/45_display_keypad.md): `Dxyn` in the terms of the pixels its sprite covers, the
clear and the key skips as one transaction each, and the key that ends a wait. -/

namespace Sys2Proof.Machine

/-! ### Drawing (R232, R233) -/

/-- A drawing instruction inside memory completes, with the law of drawing from the flag reset on (R232). -/
theorem exec_drw_drawn (x y : Reg) {n : Nat} {s : State} (hn : n < 16) (h : n = 0 ∨ s.i.toNat + n ≤ 4096) :
    ∃ u : State, exec (.drw x y n) s = .next u.advance ∧ DrawFrame (spriteReads s n 0) (s.setV VF 0) u ∧
      Drawn (spritePixels s (s.getV x) (s.getV y) n 0) (s.setV VF 0) u := by
  have hraised : raisedBy (.drw x y n) s = none := if_neg (by omega)
  obtain ⟨t, he, u, rfl, hf, hd⟩ := exec_completes hraised
  exact ⟨u, he, hf, hd (by omega)⟩

/-- Some listed pixel of a sprite shows `b` exactly when some pixel it covers does. -/
theorem exists_mem_spritePixels (s : State) (x y : Reg) (n : Nat) (b : Bool) :
    (∃ p ∈ spritePixels s (s.getV x) (s.getV y) n 0, s.pixel p.1 p.2 = b) ↔
      ∃ px py, SpriteCovers s x y n px py ∧ s.pixel px py = b := by
  simp only [Prod.exists, mem_spritePixels_iff_covers]

theorem readsAs_drw (x y : Reg) {n : Nat} (hn : n < 16) :
    ReadsAs (0xD000 + 256 * x.val + 16 * y.val + n) (.drw x y n) :=
  readsAs_of_encode (decide_eq_true hn)
    (by rw [encode, wordXYN, Nat.mod_eq_of_lt hn, Nat.mul_comm 256, Nat.mul_comm 16])

/-- Settles O49: the law of drawing, with the sprite's listed pixels read as those it covers. -/
theorem drawExclusiveOrsTheSprite : Obligations.DrawExclusiveOrsTheSprite := by
  intro x y n s hn h
  obtain ⟨u, he, hf, hd⟩ := exec_drw_drawn x y hn h
  refine ⟨readsAs_drw x y hn, _, he, fun px py hc => ?_, fun px py hc => ?_, fun hlit => ?_, fun hdark => ?_, ?_,
    fun k hk => ?_, fun a => ?_, pcMoved_advance ?_, ?_⟩
  · exact (hd.pixel px py).trans (if_pos ((mem_spritePixels_iff_covers ..).mpr hc))
  · exact (hd.pixel px py).trans (if_neg (mt (mem_spritePixels_iff_covers ..).mp hc))
  · exact hd.flag.trans (if_pos ((exists_mem_spritePixels s x y n true).mpr hlit))
  · refine (hd.flag.trans (if_neg fun hlit => ?_)).trans ((State.getV_setV ..).trans (if_pos rfl))
    obtain ⟨px, py, hc, hp⟩ := (exists_mem_spritePixels s x y n true).mp hlit
    exact Bool.false_ne_true ((hdark px py hc).symm.trans hp)
  · exact hd.dirty.trans (or_congr_right (exists_mem_spritePixels s x y n false))
  · exact (hf.regs k hk).trans ((State.getV_setV ..).trans (if_neg hk))
  all_goals rw [hf.frame]; rfl

/-- Settles O50: the marks are counted over the listed pixels that were dark, and these are the ones that went from 0
to 1, each listed once. -/
theorem drawMarksDirtyOncePerLitPixel : Obligations.DrawMarksDirtyOncePerLitPixel := by
  intro x y n s t hn h ht
  obtain ⟨u, he, -, hd⟩ := exec_drw_drawn x y hn h
  cases ht.symm.trans he
  have hnodup := spritePixels_nodup s (s.getV x) (s.getV y) n 0 (by omega)
  have hlit : Finset.univ.filter (fun p : Col × Row => s.pixel p.1 p.2 = false ∧ u.pixel p.1 p.2 = true) =
      ((spritePixels s (s.getV x) (s.getV y) n 0).filter fun p => !s.pixel p.1 p.2).toFinset := by
    ext ⟨px, py⟩
    simp only [Finset.mem_filter, Finset.mem_univ, true_and, List.mem_toFinset, List.mem_filter, hd.pixel,
      State.setV_pixel]
    cases s.pixel px py <;> simp
  have hcard := List.toFinset_card_of_nodup (hnodup.filter fun p => !s.pixel p.1 p.2)
  exact hd.marks.trans (congrArg (_ + ·) (hcard.symm.trans (congrArg Finset.card hlit.symm)))

/-- What a sprite covers depends on `I`, memory and the two operands only (R232). -/
theorem spriteCovers_congr {s t : State} {x y : Reg} (hi : t.i = s.i) (hm : SameMemory s t)
    (hx : t.getV x = s.getV x) (hy : t.getV y = s.getV y) (n : Nat) (px : Col) (py : Row) :
    SpriteCovers t x y n px py ↔ SpriteCovers s x y n px py := by
  simp only [SpriteCovers, hi, hx, hy, hm _]

/-- Settles O51: the second draw covers the same pixels, so it turns each of them back; and where the first turned none
off, it left all of them set. -/
theorem drawingTwiceRestoresTheDisplay : Obligations.DrawingTwiceRestoresTheDisplay := by
  intro x y n s t hn h ht hx hy
  obtain ⟨-, t', he, hflip, hkeep, hcollides, -, -, -, hmem, -, hframe⟩ := drawExclusiveOrsTheSprite x y n s hn h
  cases ht.symm.trans he
  have hi : t.i = s.i := by rw [hframe]
  have hcovers := spriteCovers_congr hi hmem hx hy n
  obtain ⟨-, u, hu, hflip', hkeep', hcollides', -⟩ := drawExclusiveOrsTheSprite x y n t hn (hi ▸ h)
  refine ⟨u, hu, Display.ext_pixels fun px py => ?_, fun hVF => ?_⟩
  · change u.pixel px py = s.pixel px py
    by_cases hc : SpriteCovers s x y n px py
    · rw [hflip' px py ((hcovers px py).mpr hc), hflip px py hc, Bool.not_not]
    · rw [hkeep' px py (mt (hcovers px py).mp hc), hkeep px py hc]
  · rintro ⟨px, py, hc⟩
    have hdark : s.pixel px py = false := by
      by_contra hlit
      have hone := hcollides ⟨px, py, hc, eq_true_of_ne_false hlit⟩
      exact absurd (hVF.symm.trans hone) (by decide)
    exact hcollides' ⟨px, py, (hcovers px py).mpr hc, by rw [hflip px py hc, hdark, Bool.not_false]⟩

/-! ### The clear and the key skips (R231, R234, R235) -/

/-- Settles O48: the handler is the clear, which darkens every pixel, and the advance. -/
theorem clearDarkensEveryPixel : Obligations.ClearDarkensEveryPixel :=
  ⟨readsAs_of_encode rfl rfl, fun s =>
    ⟨_, rfl, fun px py => State.pixel_dispClear px py s, pcMoved_advance rfl, fun _ => rfl, rfl⟩⟩

/-- What an instruction does whose handler asks the keypad once, with all of `Vx`, and then skips on `c`. -/
theorem exec_keySkips {i : Instr} {x : Reg} {s : State} {c : Bool} {p : Prop} [Decidable p]
    (he : exec i s = .next ((s.keyQuery (s.getV x)).skipIf c)) (hc : c = true ↔ p) :
    ∃ t, exec i s = .next t ∧ PcMoved (if p then 4 else 2) s t ∧ SameMemory s t ∧
      t = { s with
        pc := t.pc, draws := s.draws + 1,
        trace := s.trace ++ [.isKeyDown (s.getV x) (Config.keyDown s.draws (s.getV x))] } :=
  ⟨_, he, pcMoved_skipIf rfl hc, fun _ => rfl, rfl⟩

/-- Settles O52: both handlers skip after one query, on its answer and on the opposite. -/
theorem keySkipsFollowTheKeypad : Obligations.KeySkipsFollowTheKeypad := fun _ _ =>
  ⟨readsAs_wordX rfl rfl, readsAs_wordX rfl rfl, _, rfl, exec_keySkips rfl Iff.rfl,
    exec_keySkips rfl (Bool.not_eq_true' _).to_iff⟩

/-! ### The key that ends a wait (R141, R236) -/

theorem State.arrive_key {s : State} {kx : Reg} (code : KeyCode) (hm : s.mode = .awaitingKey kx) :
    s.arrive (some (.key code)) = (s.takeKey kx code).finishCycle := by
  simp only [State.arrive, State.onKey, hm]

/-- A delivered code is written whole to its register, and to no other (R236). -/
theorem State.getV_takeKey (kx r : Reg) (code : KeyCode) (s : State) :
    (s.takeKey kx code).getV r = if r = kx then BitVec.ofNat 8 code.val else s.getV r :=
  State.getV_setV ..

/-- A waiting block does nothing of itself, so its step is what arrives (R141). -/
theorem step_awaitingKey {s : State} {kx : Reg} {a : Option Arrival} {rest : List Input}
    (hm : s.mode = .awaitingKey kx) (hin : s.inputs = ⟨a, none⟩ :: rest) :
    step s = .next (State.arrive a { s with inputs := rest }) := by
  obtain ⟨hinput, hdrop⟩ := State.input_listed hin
  have hidle : s.dropInput.proceed = .next s.dropInput := State.proceed_idle (by simp [hm])
  rw [step_of_proceed hidle, hinput, hdrop]
  rfl

/-- Settles O22: the code that arrives is taken, and then the suspended cycle ends. -/
theorem deliveredKeyCompletesTheWait : Obligations.DeliveredKeyCompletesTheWait := by
  intro s kx code rest hm hin
  have hstep : step s = .next (State.takeKey kx code { s with inputs := rest }).finishCycle :=
    (step_awaitingKey hm hin).trans (congrArg _ (State.arrive_key code hm))
  refine ⟨_, hstep, ?_, fun r hr => ?_, ?_, fun a => ?_, ?_⟩
  · rw [State.finishCycle_getV, State.getV_takeKey, if_pos rfl, BitVec.toNat_ofNat]
    omega
  · rw [State.finishCycle_getV, State.getV_takeKey, if_neg hr]; rfl
  · rw [PcMoved, State.finishCycle_frame]
    exact BitVec.toNat_add s.pc 2
  · rw [State.finishCycle_frame]; rfl
  · rw [State.finishCycle, State.tick_eq_toNat]; rfl

end Sys2Proof.Machine
end

section
/-! PROOFS. Faults (spec/60_exceptions.md): an instruction that completes leaves the fault record alone, and a cycle
that faults is fault entry on the state it began with, after the reads of its fetch. -/

namespace Sys2Proof.Machine

/-! ### An instruction faults or keeps the record (R250, R255, R258) -/

/-- From `s` to `t` no fault was taken: `Faulted` was not entered and the record stands as it was (R32, R255). -/
structure KeepsRecord (s t : State) : Prop where
  mode  : s.mode ≠ .faulted → t.mode ≠ .faulted
  cause : t.cause = s.cause
  info  : t.info = s.info

theorem KeepsRecord.of_same_mode {s t : State} (hm : t.mode = s.mode := by rfl) (hc : t.cause = s.cause := by rfl)
    (hi : t.info = s.info := by rfl) : KeepsRecord s t :=
  ⟨fun h => hm ▸ h, hc, hi⟩

/-- An instruction for which no fault is listed keeps the record: `Fx0A` changes the mode, to `AwaitingKey`, and no
other writes mode or record. -/
theorem exec_keepsRecord {i : Instr} {s t : State} (hn : raisedBy i s = none) (h : exec i s = .next t) :
    KeepsRecord s t := by
  rcases exec_cases h with ⟨f, hf, -⟩ | ⟨-, hc⟩
  · cases hf.symm.trans hn
  cases i with
  | ret =>
    obtain ⟨rest, a, -, rfl⟩ := hc
    exact .of_same_mode
  | call nnn =>
    obtain ⟨-, rfl⟩ := hc
    exact .of_same_mode
  | drw x y n =>
    obtain ⟨u, rfl, hu, -⟩ := hc
    rw [hu.frame]
    exact .of_same_mode
  | ldBVx x | ldMemVx x =>
    obtain ⟨u, rfl, hu⟩ := hc
    rw [hu.frame]
    exact .of_same_mode
  | ldVxMem x =>
    obtain ⟨u, rfl, hu, -⟩ := hc
    rw [hu]
    exact .of_same_mode
  | ldVxK x => cases h; exact ⟨fun _ => Mode.noConfusion, rfl, rfl⟩
  | _ => cases h; exact .of_same_mode

/-- Settles O26: the fault listed is the whole of the outcome, and where none is listed the completion keeps the
record. -/
theorem handlersFaultExactlyAsListed : Obligations.HandlersFaultExactlyAsListed := by
  intro i s hm
  cases hr : raisedBy i s with
  | some fault => exact exec_of_raisedBy hr
  | none =>
    obtain ⟨t, he, -⟩ := exec_completes hr
    have hk := exec_keepsRecord hr he
    exact ⟨t, he, hk.mode hm, hk.cause, hk.info⟩

/-! ### A cycle that faults (R140, R256, R257) -/

/-- From `s` to `t` the block took the fault `f`, after no transaction that R146 observes: mode and record are those
of fault entry, and nothing else changed. -/
structure TakesFault (f : Fault) (s t : State) : Prop where
  frame    : t = { s.enterFault f with trace := t.trace }
  observed : t.observed = s.observed

theorem State.observed_log {e : Event} {s : State} (h : e.observable = false) : (s.log e).observed = s.observed := by
  simp [State.observed, h]

/-- The fetch is not observable (R134, R146). -/
theorem State.observed_afterFetch {s : State} (hf : s.Fetchable) : (s.afterFetch hf).observed = s.observed :=
  (State.observed_log rfl).trans (State.observed_log rfl)

theorem TakesFault.after_fetch (f : Fault) {s : State} (hf : s.Fetchable) :
    TakesFault f s ((s.afterFetch hf).enterFault f) :=
  ⟨rfl, State.observed_afterFetch hf⟩

/-- A `Running` block that cannot fetch takes the fault of the lowest address out of range (R64, R252). -/
theorem State.proceed_of_not_fetchable {s : State} (hr : s.Ready) (hf : ¬ s.Fetchable) :
    ∃ t, s.proceed = .next t ∧ TakesFault (.memoryFault (max s.pc.toNat Config.memSize)) s t := by
  rw [State.proceed_ready hr]
  by_cases hl : s.pc.toNat + 1 = Config.memSize
  · rw [State.fetch16_last s hl, Nat.max_eq_right (by omega)]
    exact ⟨_, rfl, rfl, State.observed_log rfl⟩
  · have hge : Config.memSize ≤ s.pc.toNat := by omega
    rw [State.fetch16_outside s hge, Nat.max_eq_left hge]
    exact ⟨_, rfl, rfl, rfl⟩

/-- A `Running` block that fetched an opcode of no entry takes `UnimplementedInstruction` (R94, R251). -/
theorem State.proceed_of_illegal {s : State} (hr : s.Ready) (hf : s.Fetchable)
    (hd : decodeWord s.opcodeAtPc = .error (.unimplementedInstruction s.opcodeAtPc)) :
    s.proceed = .next ((s.afterFetch hf).enterFault (.unimplementedInstruction s.opcodeAtPc)) := by
  have hfetch : s.fetch16 s.pc.toNat = .ok s.opcodeAtPc (s.afterFetch hf) := State.fetch16_ok s hf
  rw [State.proceed_ready hr, hfetch]
  simp only [State.dispatch, hd]

theorem State.afterHandler_mode (s : State) : s.afterHandler.mode = s.mode := by
  rcases s.afterHandler_cases with ⟨-, e⟩ | ⟨-, e⟩
  · rw [e, State.finishCycle_mode]
  · rw [e]

/-- Steps 4 and 5 do not follow a fault (R140). -/
theorem State.afterHandler_enterFault (f : Fault) (s : State) : (s.enterFault f).afterHandler = s.enterFault f := rfl

/-- A `Running` block ends a cycle in `Faulted` by fault entry only: at the fetch, at the decode, or in its handler. -/
theorem State.takesFault_of_proceed {s t : State} (hr : s.Ready) (hp : s.proceed = .next t) (hm : t.mode = .faulted) :
    ∃ f, TakesFault f s t := by
  by_cases hf : s.Fetchable
  · cases hd : decodeWord s.opcodeAtPc with
    | error e =>
      obtain ⟨rfl, -⟩ := Laws.decodeWord_error_op hd
      cases hp.symm.trans (State.proceed_of_illegal hr hf hd)
      exact ⟨_, .after_fetch _ hf⟩
    | ok i =>
      obtain ⟨u, he⟩ := exec_answers i (s.afterFetch hf)
      cases hp.symm.trans (State.proceed_of_exec hr hf hd he)
      rcases exec_cases he with ⟨f, -, rfl⟩ | ⟨hn, -⟩
      · exact ⟨f, State.afterHandler_enterFault f _ ▸ .after_fetch f hf⟩
      · have hrun : (s.afterFetch hf).mode ≠ .faulted := by simp [State.afterFetch, hr.1]
        rw [State.afterHandler_mode] at hm
        exact absurd hm ((exec_keepsRecord hn he).mode hrun)
  · obtain ⟨u, hu, h⟩ := State.proceed_of_not_fetchable hr hf
    cases hp.symm.trans hu
    exact ⟨_, h⟩

/-- A quiet step in which the block takes a fault adds nothing to it but the input taken. -/
theorem step_of_takesFault {f : Fault} {s t : State} (hq : s.Quiet) (h : TakesFault f s.dropInput t) :
    t.observed = s.observed ∧
    t = { s with
      mode := .faulted, cause := f.code, info := f.detail, inputs := s.inputs.tail, trace := t.trace } := by
  rw [(State.input_quiet hq).2] at h
  exact ⟨h.observed, h.frame⟩

/-- The `info` of a fetch fault: `pc` itself from 4096 up, and 4096 below (R63, R252). -/
theorem detail_fetchFault (pc : Word) :
    (Fault.memoryFault (max pc.toNat Config.memSize)).detail = if 4096 ≤ pc.toNat then pc else 0x1000 := by
  change BitVec.ofNat 16 (max pc.toNat 4096) = _
  split
  · next h => rw [Nat.max_eq_left h, BitVec.ofNat_toNat, BitVec.setWidth_eq]
  · next h => rw [Nat.max_eq_right (by omega)]; rfl

/-- Settles O11: the block takes the fault of its fetch. -/
theorem fetchOutsideMemoryFaults : Obligations.FetchOutsideMemoryFaults := by
  intro s hr hq hf
  obtain ⟨t, hp, h⟩ := State.proceed_of_not_fetchable (s := s.dropInput) hr hf
  rw [← detail_fetchFault]
  exact ⟨t, step_quiet hq hp, step_of_takesFault hq h⟩

/-- Settles O12: an opcode that no row accepts is rejected by the decoder, and dispatch takes the fault. -/
theorem illegalOpcodeIsAFatalFault : Obligations.IllegalOpcodeIsAFatalFault := by
  intro s hr hq hf hrows
  have hp := State.proceed_of_illegal (s := s.dropInput) hr hf (Laws.decodeWord_error hrows)
  have h := TakesFault.after_fetch (s := s.dropInput) (.unimplementedInstruction s.opcodeAtPc) hf
  exact ⟨_, step_quiet hq hp, step_of_takesFault hq h⟩

/-- Settles O27: a step in which the block faults is fault entry after unobservable reads. -/
theorem faultingCycleChangesNothingElse : Obligations.FaultingCycleChangesNothingElse := by
  intro s t hr hq hstep hm
  obtain ⟨u, hp, -⟩ := proceed_of_step hstep
  cases hstep.symm.trans (step_quiet hq hp)
  obtain ⟨f, h⟩ := State.takesFault_of_proceed (s := s.dropInput) hr hp hm
  obtain ⟨hobserved, hframe⟩ := step_of_takesFault hq h
  have hcause : t.cause = f.code := congrArg State.cause hframe
  have hinfo : t.info = f.detail := congrArg State.info hframe
  rw [hcause, hinfo]
  exact ⟨hobserved, hframe⟩

end Sys2Proof.Machine
end

section
/-! PROOFS. Reset, start and loading (spec/70_reset_and_hazards.md): a step with a listed input is the block's own
proceeding and then that input; what arrives is the whole step where no cycle runs; the launch is two loads and a
`start`. -/

namespace Sys2Proof.Machine

/-! ### A step whose input is listed (R129, R142) -/

theorem step_listed {s u : State} {inp : Input} {rest : List Input} (hin : s.inputs = inp :: rest)
    (hu : State.proceed { s with inputs := rest } = .next u) :
    step s = .next (applyInput inp { s with inputs := rest } u) := by
  obtain ⟨hinput, hdrop⟩ := State.input_listed hin
  rw [← hdrop] at hu ⊢
  rw [step_of_proceed hu, hinput]

/-- Where no cycle runs, what arrives is the whole step (R132). -/
theorem step_arrival {s : State} {a : Option Arrival} {rest : List Input} (hm : s.mode ≠ .running)
    (hin : s.inputs = ⟨a, none⟩ :: rest) : step s = .next (State.arrive a { s with inputs := rest }) :=
  step_listed hin (State.proceed_idle (s := { s with inputs := rest }) hm)

/-! ### Start and the host's loads (R129, R131, R292, R295) -/

theorem State.onStart_idle {s : State} (hm : s.mode = .idle) : s.onStart = s.setMode .running := by
  simp only [State.onStart, hm]

theorem State.onHostFill_idle {s : State} (cells : List (Fin Config.memSize × Byte)) (hm : s.mode = .idle) :
    s.onHostFill cells = State.log (.hostFill cells) { s with mem := Memory.fill s.mem cells } := by
  simp only [State.onHostFill, hm]

theorem State.onHostPicture_idle {s : State} (fb : Display) (dirty : Bool) (hm : s.mode = .idle) :
    s.onHostPicture fb dirty = State.log (.hostPicture fb dirty) { s with fb := fb, dirty := dirty } := by
  simp only [State.onHostPicture, hm]

/-- Outside `Idle` only `closed` and a key act. -/
theorem State.arrive_of_not_idle {s : State} {a : Arrival} (hm : s.mode ≠ .idle) (hclosed : a ≠ .closed)
    (hkey : ∀ code, a ≠ .key code) : s.arrive (some a) = s := by
  cases a with
  | closed => exact absurd rfl hclosed
  | key code => exact absurd rfl (hkey code)
  | start | hostFill cells | hostPicture fb dirty =>
    simp only [State.arrive, State.onStart, State.onHostFill, State.onHostPicture]
    split
    · next h => exact absurd h hm
    all_goals rfl

/-- In `Idle` a step that takes `start` does nothing else (R292). -/
theorem step_start {s : State} {rest : List Input} (hm : s.mode = .idle)
    (hin : s.inputs = ⟨some .start, none⟩ :: rest) : step s = .next { s with mode := .running, inputs := rest } :=
  (step_arrival (by simp [hm]) hin).trans (congrArg _ (State.onStart_idle hm))

/-- Settles O15: in `Idle` the arrival is the whole step; outside it the block's own proceeding does not lead to
`Idle`, so the arrival lands where it does nothing. -/
theorem startAndLoadingActInIdleOnly : Obligations.StartAndLoadingActInIdleOnly := by
  intro s a rest hin
  refine ⟨fun hm => ?_, fun hm hclosed hkey => ?_⟩
  · have hstep := step_arrival (by simp [hm]) hin
    refine ⟨?_, ?_, ?_⟩
    · rintro rfl
      exact step_start hm hin
    · rintro cells rfl
      exact ⟨_, hstep.trans (congrArg _ (State.onHostFill_idle cells hm)), Memory.get_fill s.mem cells, rfl⟩
    · rintro fb dirty rfl
      exact hstep.trans (congrArg _ (State.onHostPicture_idle fb dirty hm))
  · obtain ⟨u, hu⟩ := State.proceed_answers { s with inputs := rest }
    obtain ⟨es, hes⟩ := State.transacts_proceed hu
    have harrive : u.arrive (some a) = u := State.arrive_of_not_idle (hes.notIdle hm) hclosed hkey
    calc step s = .next (u.arrive (some a)) := step_listed hin hu
      _ = .next u := congrArg _ harrive
      _ = step { s with inputs := Input.quiet :: rest } :=
        (step_listed (s := { s with inputs := Input.quiet :: rest }) rfl hu).symm

/-! ### Reset (R39, R142, R290) -/

theorem State.blockReset_getV (s : State) (r : Reg) : s.blockReset.getV r = 0 := by
  simp [State.getV]

/-- A reset before the first transaction is a reset of the state the step began with. -/
theorem interruptedReset_zero (s t : State) : interruptedReset 0 s t = s.blockReset := by
  simp only [interruptedReset, List.take_zero, List.append_nil]
  rfl

/-- Settles O17: wherever in the step the reset strikes, the step ends in a block reset. -/
theorem resetRestoresTheBlock : Obligations.ResetRestoresTheBlock := by
  intro s a done rest hin
  obtain ⟨u, hu⟩ := State.proceed_answers { s with inputs := rest }
  refine ⟨_, step_listed hin hu, rfl, State.blockReset_getV _, rfl, rfl, rfl, rfl, rfl, rfl, rfl, rfl, rfl, ?_⟩
  rintro rfl
  have hreset : applyInput ⟨a, some 0⟩ { s with inputs := rest } u = State.blockReset { s with inputs := rest } :=
    interruptedReset_zero ..
  rw [hreset]
  exact ⟨rfl, rfl, rfl⟩

/-! ### The launch (R66, R291 to R294) -/

/-- The program lies above the font, so loading it leaves the font in place. -/
theorem State.launch_byteAt_font (rom : List Byte) {k : Nat} (hk : k < Config.fontBytes.length) :
    (State.launch rom).byteAt k = Config.fontBytes[k] := by
  have hbelow : k < Config.romBase := Nat.lt_trans hk (by decide)
  simp only [State.byteAt, State.launch, Memory.get_load]
  rw [dif_neg (by omega), dif_pos (by simpa using hk)]
  rfl

theorem State.launch_byteAt_rom {rom : List Byte} (hfit : rom.length ≤ 3584) {k : Nat} (hk : k < rom.length) :
    (State.launch rom).byteAt (Config.romBase + k) = rom[k] := by
  have hwhole : rom.take (Config.memSize - Config.romBase) = rom := List.take_of_length_le hfit
  simp only [State.byteAt, State.launch, hwhole, Memory.get_load]
  rw [dif_pos (by omega)]
  simp only [Nat.add_sub_cancel_left]

/-- Settles O60: the two loads, and a first step that takes `start` in `Idle`. -/
theorem launchPlacesFontAndProgram : Obligations.LaunchPlacesFontAndProgram := by
  intro rom hfit
  refine ⟨fun d hd j hj => ?_, fun k hk => State.launch_byteAt_rom hfit hk, ?_⟩
  · have hk : d * 5 + j < Config.fontBytes.length := by
      have hlength : Config.fontBytes.length = 80 := rfl
      omega
    rw [State.launch_byteAt_font rom hk, List.getElem?_eq_getElem hk]
  · have hstep := step_start (s := State.launch rom) rfl rfl
    exact ⟨_, hstep, ⟨rfl, rfl⟩, (by decide : Config.entry.toNat + 1 < Config.memSize), rfl, fun _ => rfl⟩

end Sys2Proof.Machine
end
